-- ==== Sys2Proof/Word.lean ====
section
/-! DEFINITION. The widths of the hardware's values (spec/00_scope.md R7, R8, R9).

Bit vectors stand for what the spec treats as bits: register contents, the program counter, call-stack entries,
the fields of an instruction word. All of them are unsigned (R9). -/

namespace Sys2Proof

/-- `REG_WIDTH`: a register's contents and a memory element (R7, R29). -/
abbrev Byte := BitVec 8

/-- `WORD_WIDTH`, `PC_WIDTH` and `STACK_ENTRY_WIDTH`: instruction words, the program counter, call-stack entries (R7). -/
abbrev Word := BitVec 16

/-- `ADDR_WIDTH`: CALL's immediate, and the address of a memory byte (R7, R40). -/
abbrev Addr := BitVec 12

/-- A four-bit field of an instruction word (R61). -/
abbrev Nibble := BitVec 4

/-- A register's number: "always in `0..16` by construction of the decode step" (R23). -/
abbrev RegIdx := Fin 16

end Sys2Proof
end

