-- ==== Sys2Proof/Config.lean ====
section
/-! DEFINITION. The parameters of spec/00_scope.md R7. All are fixed but `START_PC`, which is no constant: the host sets
it by the SETPC transaction (R170), and reset leaves its default.

There is no free value: spec/93_implementation_defined.md says that no read of any state yields an undefined value. -/

namespace Sys2Proof.Config

/-- `NUM_REGS` (R7). -/
abbrev numRegs : Nat := 16

/-- `MEM_SIZE` in bytes (R7, decision D17). -/
abbrev memSize : Nat := 4096

/-- `STACK_DEPTH` in entries (R7). `State`'s types write it out. -/
abbrev stackDepth : Nat := 16

/-- `FLAG_REG`, the register called VF (R7, R21). -/
abbrev flagReg : RegIdx := 0xF

/-- The last address at which a fetch is in bounds (R43). -/
abbrev lastFetch : Nat := 0xFFE

/-- The default of `START_PC` (R7, R161). -/
abbrev startPc : Word := 0x0000

end Sys2Proof.Config
end

