-- ==== Sys2Proof/Syntax.lean ====
section
/-! DEFINITION. The instruction set: one constructor for each row of spec/opcode_table.json (spec/00_scope.md R2). -/

namespace Sys2Proof

/-- The four instructions (R2, R65). Operands carry exactly the range their field admits (R23, R63), so every term
stands for one instruction word. -/
inductive Instr where
  /-- HALT, `0x0000` (R102). -/
  | halt
  /-- RETURN, `0x00EE` (R103). -/
  | ret
  /-- CALL addr, `0x2nnn` (R104). -/
  | call (addr : Addr)
  /-- ADD reg[x], reg[y], `0x8xy4` (R120). -/
  | add (x y : RegIdx)
  deriving DecidableEq, Repr

/-- The instruction's name in spec/opcode_table.json. -/
def Instr.mnemonic : Instr → String
  | .halt => "HALT"
  | .ret => "RETURN"
  | .call _ => "CALL"
  | .add _ _ => "ADD"

end Sys2Proof
end

