-- ==== Sys2Proof/WellFormed.lean ====
section
/-! DEFINITION. The checks on instructions and images written with plain numbers.

`Instr` carries its operands' ranges in its types, so each of its terms is well formed (spec/10_state.md R23). The
checks therefore stand on `RawInstr`, the form in which a person or an assembler writes an instruction, with operands
of any size; `RawInstr.toInstr` passes exactly the well-formed ones on. -/

namespace Sys2Proof

/-- An instruction whose operands are numbers not yet checked (the assembler syntax of spec/30_encoding.md R70). -/
inductive RawInstr where
  | halt
  | ret
  | call (addr : Nat)
  | add (x y : Nat)
  deriving DecidableEq, Repr

/-- "x and y are 0..15" (R70; R23). -/
def regFits (n : Nat) : Bool := decide (n < Config.numRegs)

/-- "`addr` is a 12-bit value 0x000..0xFFF" (R70; R63). -/
def addrFits (n : Nat) : Bool := decide (n < 2 ^ 12)

/-- A raw word is a 16-bit value (R70, `.word`). -/
def wordFits (n : Nat) : Bool := decide (n < 2 ^ 16)

/-- A byte sequence of this length at this offset does not overflow memory (spec/70_reset_and_hazards.md R168). -/
def imageFits (offset length : Nat) : Bool := decide (offset + length ≤ Config.memSize)

/-- Every operand is in the range its field admits. -/
def RawInstr.wellFormed : RawInstr → Bool
  | .halt => true
  | .ret => true
  | .call addr => addrFits addr
  | .add x y => regFits x && regFits y

/-- The instruction a well-formed raw one stands for; none for an ill-formed one. -/
def RawInstr.toInstr : RawInstr → Option Instr
  | .halt => some .halt
  | .ret => some .ret
  | .call addr => if addr < 2 ^ 12 then some (.call (BitVec.ofNat 12 addr)) else none
  | .add x y =>
    if hx : x < 16 then
      if hy : y < 16 then some (.add ⟨x, hx⟩ ⟨y, hy⟩) else none
    else none

/-- The same instruction with its operands as plain numbers. -/
def Instr.toRaw : Instr → RawInstr
  | .halt => .halt
  | .ret => .ret
  | .call addr => .call addr.toNat
  | .add x y => .add x.val y.val

/-- An instruction is well formed when its operands are in range; `Instr`'s types see to it for every term. -/
def Instr.wellFormed (i : Instr) : Bool := i.toRaw.wellFormed

end Sys2Proof
end

