-- ==== Sys2Proof/Decode.lean ====
section
/-! DEFINITION. Decode, dispatch table and encode (spec/30_encoding.md R60 to R67, R69).

Decode has two parts, as in the spec: `decodeFields` splits any word into its fields and never rejects (R62);
`selectRow` is the dispatcher's choice among the four patterns (R65), the only place where a word is rejected (R67). -/

namespace Sys2Proof

/-! ### Words and bytes -/

/-- The word of two bytes, "the first byte as the high-order 8 bits" (spec/20_memory.md R42). -/
def wordOfBytes (first second : Byte) : Word :=
  (first.setWidth 16 <<< 8) ||| second.setWidth 16

/-- The two bytes of a word in the order they stand in memory (R42). -/
def bytesOfWord (w : Word) : Byte × Byte := (w.extractLsb' 8 8, w.extractLsb' 0 8)

/-! ### Fields -/

/-- The tuple decode gives for a word (R61). The fields overlap: `addr` is `x`, `y` and `n` together. -/
structure Fields where
  op : Nibble
  x : Nibble
  y : Nibble
  n : Nibble
  addr : Addr
  byte : Byte
  deriving DecidableEq, Repr

/-- "Decode is pure and total: every 16-bit value decodes to some tuple of fields" (R62). -/
def decodeFields (w : Word) : Fields where
  op := w.extractLsb' 12 4
  x := w.extractLsb' 8 4
  y := w.extractLsb' 4 4
  n := w.extractLsb' 0 4
  addr := w.extractLsb' 0 12
  byte := w.extractLsb' 0 8

/-- The register a four-bit field names (R23). -/
def regOfField (f : Nibble) : RegIdx := ⟨f.toNat, f.isLt⟩

/-- The four-bit field that names a register (R23, R64). -/
def fieldOfReg (r : RegIdx) : Nibble := BitVec.ofNat 4 r.val

/-! ### Dispatch -/

/-- The dispatcher's choice of a row by `(op, x, y, n)`; none for an unmatched tuple (R65, R67). -/
def selectRow (f : Fields) : Option Instr :=
  if f.op = 0x0 ∧ f.x = 0x0 ∧ f.y = 0x0 ∧ f.n = 0x0 then some .halt
  else if f.op = 0x0 ∧ f.x = 0x0 ∧ f.y = 0xE ∧ f.n = 0xE then some .ret
  else if f.op = 0x2 then some (.call f.addr)
  else if f.op = 0x8 ∧ f.n = 0x4 then some (.add (regOfField f.x) (regOfField f.y))
  else none

/-- The instruction a word selects; none for an unimplemented opcode (R65, R67). -/
def decodeWord (w : Word) : Option Instr := selectRow (decodeFields w)

/-- Why a byte sequence gives no instruction. -/
inductive DecodeReject where
  /-- Fewer than two bytes: no word can be formed (R60). Safe: the machine's own fetch always has both bytes (R43). -/
  | truncated
  /-- The word matches no row (R67); the machine then raises `UnimplementedOpcode`. -/
  | unimplementedOpcode (w : Word)
  deriving DecidableEq, Repr

/-- Decode the first instruction of a byte sequence and give back the bytes after it (R42, R60). -/
def decodeBytes : List Byte → Except DecodeReject (Instr × List Byte)
  | first :: second :: rest =>
    match decodeWord (wordOfBytes first second) with
    | some i => .ok (i, rest)
    | none => .error (.unimplementedOpcode (wordOfBytes first second))
  | _ => .error .truncated

/-! ### The table, as the spec writes it -/

/-- One row of the table of R65: the word `w` selects it when `w & mask == match`. -/
structure OpcodeRow where
  mnemonic : String
  pattern : Word
  mask : Word
  deriving DecidableEq, Repr

/-- The four rows of R65 and spec/opcode_table.json. -/
def opcodeRows : List OpcodeRow :=
  [⟨"HALT", 0x0000, 0xFFFF⟩, ⟨"RETURN", 0x00EE, 0xFFFF⟩, ⟨"CALL", 0x2000, 0xF000⟩, ⟨"ADD", 0x8004, 0xF00F⟩]

/-- `(w & mask) == match` (R65). -/
def OpcodeRow.selects (w : Word) (r : OpcodeRow) : Bool := (w &&& r.mask) == r.pattern

/-! ### Encode -/

/-- The word of an instruction, field by field from the format table R64. -/
def encode : Instr → Word
  | .halt => 0x0#4 ++ 0x0#4 ++ 0x0#4 ++ 0x0#4
  | .ret => 0x0#4 ++ 0x0#4 ++ 0xE#4 ++ 0xE#4
  | .call addr => 0x2#4 ++ addr
  | .add x y => 0x8#4 ++ fieldOfReg x ++ fieldOfReg y ++ 0x4#4

/-- The bytes of an instruction in the order they stand in memory (R42). -/
def encodeBytes (i : Instr) : List Byte := [(bytesOfWord (encode i)).1, (bytesOfWord (encode i)).2]

/-! ### The host's question to the decoder -/

/-- What this decoder reads from the `nbits` low bits of `w`, laid out as the hardware stores a word (R42). Every
instruction has 16 bits (R60), so a longer one is none of this hardware's. -/
def decodeTableWord (nbits w : Nat) : Option Instr :=
  if nbits ≤ 16 then
    let v : Word := BitVec.ofNat 16 (w % 2 ^ nbits)
    match decodeBytes [(bytesOfWord v).1, (bytesOfWord v).2] with
    | .ok (i, _) => some i
    | .error _ => none
  else none

end Sys2Proof
end

