-- ==== Sys2Proof/Machine/State.lean ====
section
/-! DEFINITION. The machine's state: the six components of spec/10_state.md, and its values after reset (R32). -/

namespace Sys2Proof.Machine

/-- The four faults of the hardware (spec/60_exceptions.md R130), in the order of their cause codes.

Taking one is an ordinary NEXT state of the step, which records the reason in `run` (R136). No step answers the host's
outcome `fault`, so these reasons are met only inside `RunState.faulted`. -/
inductive Fault where
  /-- Raised by the fetch of a cycle that begins with `pc > 0xFFE` (R131). Recorded in `run`; safe: the spec's own fault. -/
  | outOfBoundsFetch
  /-- Raised by CALL when `sp = 16` (R133). Recorded in `run`; safe: the spec's own fault. -/
  | stackOverflow
  /-- Raised by RETURN when `sp = 0` (R134). Recorded in `run`; safe: the spec's own fault. -/
  | stackUnderflow
  /-- Raised by dispatch when the word matches no row (R132). Recorded in `run`; safe: the spec's own fault. -/
  | unimplementedOpcode
  deriving DecidableEq, Repr

/-- Why an instruction has no meaning. Every instruction of the opcode table has one, so nothing raises this. -/
inductive Refusal where
  /-- Raised by an arm of `exec` whose instruction is not modelled yet; no arm raises it now. Safe. -/
  | notModelled (mnemonic : String)
  deriving DecidableEq, Repr

/-- "States: `Running`, `Halted`, `Faulted(reason)`" (spec/10_state.md R28). -/
inductive RunState where
  /-- The only state in which a cycle executes. -/
  | running
  /-- Terminal, success: a HALT was dispatched. -/
  | halted
  /-- Terminal, failure, with the recorded reason. -/
  | faulted (reason : Fault)
  deriving DecidableEq, Repr

/-- The memory array as the list of its nonzero bytes, addresses rising; an unlisted address reads 0x00 (R29, R32). -/
abbrev Memory := List Host.Cell

/-- The architectural state; "the hardware has no other" (R30). -/
structure State where
  /-- `reg[0x0]` to `reg[0xF]`; register 0xF is VF (R20, R21). -/
  regs : Vector Byte 16
  /-- The program counter (R24). -/
  pc : Word
  /-- `stack[0]` to `stack[15]`; entries at or above `sp` are stale (R26). -/
  stack : Vector Word 16
  /-- The next free slot, which is the number of entries held (R27). -/
  sp : Fin 17
  /-- The run state (R28). -/
  run : RunState
  /-- `mem[0x000]` to `mem[0xFFF]` (R29). -/
  mem : Memory
  deriving DecidableEq, Repr

/-- The machine after `new()`: "all fields zeroed" and `Running` (R32, spec/70_reset_and_hazards.md R160). -/
def State.reset : State where
  regs := Vector.replicate 16 0x00
  pc := Config.startPc
  stack := Vector.replicate 16 0x0000
  sp := 0
  run := .running
  mem := []

end Sys2Proof.Machine
end

