-- ==== Sys2Proof/Machine/Ops.lean ====
section
/-! DEFINITION. The named operations over memory, registers, the call stack, `pc` and the run state. The instructions,
the cycle and the host interface are written over these. -/

namespace Sys2Proof.Machine

/-! ### Memory (spec/20_memory.md R40, R41; spec/70_reset_and_hazards.md R168) -/

/-- What a byte that no load wrote holds (spec/10_state.md R32). -/
def Memory.unlisted : Byte := 0x00

/-- `mem[a]` (R41). -/
def Memory.read : Memory → Nat → Byte
  | [], _ => Memory.unlisted
  | (k, v) :: rest, a => if a = k then v else Memory.read rest a

/-- `mem[a] <- b`, keeping the list canonical. Only the host's LOAD writes memory (R40). -/
def Memory.write : Memory → Nat → Byte → Memory
  | [], a, b => if b = Memory.unlisted then [] else [(a, b)]
  | (k, v) :: rest, a, b =>
    if a < k then
      if b = Memory.unlisted then (k, v) :: rest else (a, b) :: (k, v) :: rest
    else if a = k then
      if b = Memory.unlisted then rest else (k, b) :: rest
    else (k, v) :: Memory.write rest a b

/-- `for i in 0 .. L-1: mem[offset + i] <- bytes[i]` (R168). -/
def Memory.writeBytes : Memory → Nat → List Byte → Memory
  | m, _, [] => m
  | m, a, b :: rest => Memory.writeBytes (Memory.write m a b) (a + 1) rest

/-- The canonical form from address `low` on: addresses rise strictly, lie in the address space, and no entry equals
what an unlisted address reads as. -/
def Memory.wfFrom : Nat → Memory → Bool
  | _, [] => true
  | low, (k, v) :: rest =>
    decide (low ≤ k) && decide (k < Config.memSize) && decide (v ≠ Memory.unlisted) && Memory.wfFrom (k + 1) rest

/-- The canonical form: equal memories are equal lists. -/
def Memory.wf (m : Memory) : Bool := Memory.wfFrom 0 m

/-! ### Fetch (spec/20_memory.md R42, R43; spec/40_cycle.md R82, R83) -/

/-- Both bytes of the word at `pc` are inside memory: "`pc <= 0xFFE`" (R43). -/
def State.fetchInBounds (s : State) : Bool := decide (s.pc.toNat ≤ Config.lastFetch)

/-- The word at `pc`, big-endian, at any alignment (R42, R44); none when out of bounds, and then no byte is read (R43). -/
def State.fetch (s : State) : Option Word :=
  if s.fetchInBounds then
    some (wordOfBytes (s.mem.read s.pc.toNat) (s.mem.read (s.pc.toNat + 1)))
  else none

/-- `pc <- pc + 2`, after a fetch and before the instruction's own effects (R83, spec/10_state.md R24). -/
def State.advance (s : State) : State := { s with pc := s.pc + 2 }

/-! ### Registers (spec/10_state.md R20, R23) -/

/-- `reg[i]`. No register is hardwired, and no access faults. -/
def State.readReg (s : State) (i : RegIdx) : Byte := s.regs[i]

/-- `reg[i] <- v`. -/
def State.writeReg (s : State) (i : RegIdx) (v : Byte) : State := { s with regs := s.regs.set i v }

/-- `pc <- target`. -/
def State.setPc (s : State) (target : Word) : State := { s with pc := target }

/-! ### Call stack (spec/10_state.md R26, R27; spec/41_control.md R100, R101) -/

/-- `stack[k]`. -/
def State.stackEntry (s : State) (k : Fin 16) : Word := s.stack[k]

/-- The slot a push writes, `sp` itself; none when the stack is full, `sp == 16` (R27). -/
def State.freeSlot (s : State) : Option (Fin 16) :=
  if h : s.sp.val < 16 then some ⟨s.sp.val, h⟩ else none

/-- The slot a pop reads, `sp - 1`; none when the stack is empty, `sp == 0` (R27). -/
def State.topSlot (s : State) : Option (Fin 16) :=
  if h : s.sp.val = 0 then none else some ⟨s.sp.val - 1, by have := s.sp.isLt; omega⟩

/-- `stack[sp] <- v; sp <- sp + 1`, where `k` is the free slot (R100). -/
def State.push (s : State) (k : Fin 16) (v : Word) : State :=
  { s with stack := s.stack.set k v, sp := k.succ }

/-- `sp <- sp - 1; pc <- stack[sp]`, where `k` is the top slot; the slot keeps its value (R101, R103). -/
def State.popPc (s : State) (k : Fin 16) : State :=
  { s with sp := k.castSucc, pc := s.stackEntry k }

/-! ### Run state (spec/40_cycle.md R87; spec/60_exceptions.md R136, R139) -/

/-- Taking a fault does only `run <- Faulted(reason)`: nothing is saved, pushed or transferred, and nothing the cycle
has written before is taken back (R11, R136). There is no return from a fault (R139), so no operation undoes this. -/
def State.raise (s : State) (reason : Fault) : Host.Outcome State Fault Refusal :=
  .next { s with run := .faulted reason }

/-- `run <- Halted` (spec/41_control.md R102). -/
def State.halt (s : State) : State := { s with run := .halted }

/-- A terminal machine has no cycle, and running it changes nothing (spec/40_cycle.md R80, decision D14).
DEDUCED (log entry 1): `step` on such a state answers that state again. Safe. -/
def State.idle (s : State) : Host.Outcome State Fault Refusal := .next s

/-- `run` is terminal: `Halted` or `Faulted` (R28, R87). -/
def RunState.terminal : RunState → Bool
  | .running => false
  | .halted => true
  | .faulted _ => true

/-- The cause code of a fault (R130). -/
def Fault.code : Fault → BitVec 2
  | .outOfBoundsFetch => 0
  | .stackOverflow => 1
  | .stackUnderflow => 2
  | .unimplementedOpcode => 3

/-- STATE, bits [1:0] of STATUS (spec/10_state.md R31). -/
def RunState.stateField : RunState → BitVec 2
  | .running => 0
  | .halted => 1
  | .faulted _ => 2

/-- CAUSE, bits [3:2] of STATUS: the cause code when STATE is 2, else 0 (R31). -/
def RunState.causeField : RunState → BitVec 2
  | .running => 0
  | .halted => 0
  | .faulted reason => reason.code

/-- The 4-bit STATUS word (R31). -/
def RunState.statusWord (r : RunState) : BitVec 4 := r.causeField ++ r.stateField

end Sys2Proof.Machine
end

