-- ==== Sys2Proof/Machine/Operands.lean ====
section
/-! DEFINITION. The operand forms of the three formats (spec/30_encoding.md R63, R64): FIXED has none, ADDR has one
absolute address, XYN has two registers. -/

namespace Sys2Proof.Machine

/-- ADDR: `zext_16(addr)`, an absolute byte address, neither scaled, shifted nor relative to `pc` (R63). -/
def addrOperand (addr : Addr) : Word := addr.setWidth 16

/-- XYN: the values of both registers, read before any write (decision D6). -/
def regOperands (s : State) (x y : RegIdx) : Byte × Byte := (s.readReg x, s.readReg y)

end Sys2Proof.Machine
end

