-- ==== Sys2Proof/Machine/Flags.lean ====
section
/-! DEFINITION. The one flag of the hardware: VF, an ordinary register that ADD overwrites with its carry
(spec/10_state.md R21, spec/42_arithmetic.md R120, R121). -/

namespace Sys2Proof.Machine

/-- `s <- a + b` on the integers, 0..510 (R120). -/
def intSum (a b : Byte) : Nat := a.toNat + b.toNat

/-- `s mod 256` (R120). -/
def sumByte (a b : Byte) : Byte := BitVec.ofNat 8 (intSum a b % 256)

/-- `(s > 255) ? 1 : 0` (R120). -/
def carryByte (a b : Byte) : Byte := if intSum a b > 255 then 1 else 0

/-- The flag write: an ordinary write of register 0xF (R21). -/
def State.writeFlag (s : State) (v : Byte) : State := s.writeReg Config.flagReg v

end Sys2Proof.Machine
end

