-- ==== Sys2Proof/Machine/Arithmetic.lean ====
section
/-! DEFINITION. ADD, the only arithmetic instruction (spec/42_arithmetic.md). A meaning runs after the cycle's fetch and
advance (R83). -/

namespace Sys2Proof.Machine

/-- ADD reg[x], reg[y]: read both operands, write the sum, then write the carry into VF, which is last and so wins when
`x` is 0xF (R120, decisions D5 and D6). -/
def execAdd (x y : RegIdx) (s : State) : Host.Outcome State Fault Refusal :=
  let (a, b) := regOperands s x y
  .next ((s.writeReg x (sumByte a b)).writeFlag (carryByte a b))

end Sys2Proof.Machine
end

