-- ==== Sys2Proof/Machine/Control.lean ====
section
/-! DEFINITION. HALT, RETURN and CALL (spec/41_control.md). A meaning runs after the cycle's fetch and advance, so on
entry `pc` is the instruction's address plus 2 (R83). -/

namespace Sys2Proof.Machine

/-- HALT: `run <- Halted`, and nothing else (R102). -/
def execHalt (s : State) : Host.Outcome State Fault Refusal :=
  .next s.halt

/-- RETURN: `if sp == 0 then raise StackUnderflow(); pc <- Pop()` (R103). -/
def execReturn (s : State) : Host.Outcome State Fault Refusal :=
  match s.topSlot with
  | none => s.raise .stackUnderflow
  | some k => .next (s.popPc k)

/-- CALL: `if sp == 16 then raise StackOverflow(); Push(pc); pc <- zext_16(addr)` (R104, decision D8). -/
def execCall (addr : Addr) (s : State) : Host.Outcome State Fault Refusal :=
  match s.freeSlot with
  | none => s.raise .stackOverflow
  | some k => .next ((s.push k s.pc).setPc (addrOperand addr))

end Sys2Proof.Machine
end

