-- ==== Sys2Proof/Machine/Dispatch.lean ====
section
/-! DEFINITION. The handler each instruction calls (spec/30_encoding.md R65, spec/40_cycle.md R84). -/

namespace Sys2Proof.Machine

def exec (i : Instr) (s : State) : Host.Outcome State Fault Refusal :=
  match i with
  | .halt => Sys2Proof.Machine.execHalt s
  | .ret => Sys2Proof.Machine.execReturn s
  | .call addr => Sys2Proof.Machine.execCall addr s
  | .add x y => Sys2Proof.Machine.execAdd x y s

end Sys2Proof.Machine
end

