-- ==== Sys2Proof/Machine/Cycle.lean ====
section
/-! DEFINITION. The fetch-decode-execute cycle (spec/40_cycle.md R81). -/

namespace Sys2Proof.Machine

/-- Decode and dispatch of a fetched word, after the advance: exactly one handler, or `UnimplementedOpcode` (R81 parts 3
and 4, R84, spec/30_encoding.md R67). -/
def dispatchWord (w : Word) (s : State) : Host.Outcome State Fault Refusal :=
  match decodeWord w with
  | some i => exec i s
  | none => s.raise .unimplementedOpcode

/-- One cycle: fetch, advance, decode, dispatch. A fetch out of bounds raises before the advance, so `pc` keeps the
failing address (R81, R82). The precondition `run = Running` (R80) is `step`'s to check. -/
def cycle (s : State) : Host.Outcome State Fault Refusal :=
  match s.fetch with
  | none => s.raise .outOfBoundsFetch
  | some w => dispatchWord w s.advance

/-- STEP, and the run loop's body: a cycle while `Running`, nothing once terminal (R80, R87, R88, log entry 1). -/
def stepOnce (s : State) : Host.Outcome State Fault Refusal :=
  if s.run.terminal then s.idle else cycle s

/-- The state in which the next step fetches `w` at `pc`: both bytes of `w` stored there (R42). The host's question
needs a fetch that happens, so the run state is `Running` (R80) and an out-of-bounds `pc` is moved to 0 (R43).
DESIGN CHOICE (log entry 4): this is no move of the machine or of the spec's host. Safe. -/
def placeFetchWord (s : State) (w : Word) : State :=
  let pc : Word := if s.fetchInBounds then s.pc else 0
  let bytes := bytesOfWord w
  { s with
    pc := pc
    run := .running
    mem := Memory.writeBytes s.mem pc.toNat [bytes.1, bytes.2] }

end Sys2Proof.Machine
end

