-- ==== Sys2Proof/Machine/Step.lean ====
section
/-! DEFINITION. The machine's one step (spec/40_cycle.md R81, R85: one cycle is one indivisible transition). -/

namespace Sys2Proof.Machine

/-- One step of the run loop (R80, R81, R88). -/
def step (s : State) : Host.Outcome State Fault Refusal := stepOnce s

/-- `s` with the word whose bits are the `nbits` low bits of `w` where the next step fetches (log entry 4). -/
def State.withFetchWord (s : State) (nbits w : Nat) : State :=
  placeFetchWord s (BitVec.ofNat 16 (w % 2 ^ nbits))

end Sys2Proof.Machine
end

