-- ==== Sys2Proof/Machine/HostInterface.lean ====
section
/-! DEFINITION. The transactions between the host and the core (spec/70_reset_and_hazards.md R160 to R174).

They are the outside of the machine: the host presets the state before the first cycle and then only drives cycles and
reads. `Session` is the host's side of the interface; the phase it keeps is no state of the hardware (log entry 5). -/

namespace Sys2Proof.Machine

/-- `RunOutcome = Halted | Faulted(reason)` (spec/40_cycle.md R88). -/
inductive RunOutcome where
  /-- The success outcome (R89). -/
  | halted
  /-- The failure outcome with its reason (R89). -/
  | faulted (reason : Fault)
  deriving DecidableEq, Repr

/-- The outcome a run state records; none while `Running` (R89, R91). -/
def RunState.outcome : RunState → Option RunOutcome
  | .running => none
  | .halted => some .halted
  | .faulted reason => some (.faulted reason)

/-- The run loop, stopped by the host after at most `budget` cycles (R88, R91). A terminal machine performs no cycle
(R172), so the budget only bounds. -/
def runFor (budget : Nat) (s : State) : Host.Outcome State Fault Refusal := Host.Core.run Sys2Proof.core budget s

/-- `LoadProgram(bytes, offset)`; none when the sequence would overflow memory, and then nothing is written (R168). -/
def loadProgram (m : Memory) (offset : Nat) (bytes : List Byte) : Option Memory :=
  if imageFits offset bytes.length then some (m.writeBytes offset bytes) else none

/-- A state element the host may read (R173). -/
inductive Element where
  | reg (i : RegIdx)
  | mem (a : Addr)
  | pc
  | sp
  | stack (k : Fin 16)
  | run
  deriving DecidableEq, Repr

/-- What a READ gives: a value of the element's own width. -/
inductive Value where
  | byte (v : Byte)
  | word (v : Word)
  | count (v : Fin 17)
  | runState (v : RunState)
  deriving DecidableEq, Repr

/-- READ: the element's value, with no effect (R173). -/
def State.element (s : State) : Element → Value
  | .reg i => .byte (s.readReg i)
  | .mem a => .byte (s.mem.read a.toNat)
  | .pc => .word s.pc
  | .sp => .count s.sp
  | .stack k => .word (s.stackEntry k)
  | .run => .runState s.run

/-- The transactions of R167. -/
inductive Transaction where
  /-- `new()` (R160). -/
  | reset
  /-- `load_program(machine, bytes, offset)` (R168). -/
  | load (offset : Nat) (bytes : List Byte)
  /-- `reg[i] <- v` (R169). -/
  | setReg (i : RegIdx) (v : Byte)
  /-- `pc <- a`, the start offset `START_PC` (R170). -/
  | setPc (a : Word)
  /-- One cycle (R172). -/
  | step
  /-- Cycles until the machine is terminal or the host stops it after `budget` of them (R88, R91, R172). -/
  | run (budget : Nat)
  /-- The host stops calling the run loop (R91). -/
  | stop
  /-- Inspection (R173). -/
  | read (e : Element)
  /-- The value of `run` as the STATUS word (R31, R172). -/
  | status
  deriving DecidableEq, Repr

/-- What a transaction answers. -/
inductive Response where
  /-- Carried out. -/
  | done
  /-- LOAD failed: a host-side error, no machine fault (R168). -/
  | loadFailed
  /-- STEP or RUN: the recorded outcome; none while the machine is still `Running` (R88, R91). -/
  | outcome (o : Option RunOutcome)
  /-- READ. -/
  | value (v : Value)
  /-- STATUS. -/
  | status (w : BitVec 4)
  /-- Outside the "allowed when" column of R167: nothing is done (log entry 5). -/
  | notAllowed
  deriving DecidableEq, Repr

/-- A machine and whether its first cycle has begun, which the host must know (R167, R174, decision D30). -/
structure Session where
  machine : State
  begun : Bool
  deriving DecidableEq, Repr

/-- A fresh machine (R160, R162). -/
def Session.fresh : Session := ⟨State.reset, false⟩

/-- After a step or a run: the machine as it was left and the outcome it records. The other two answers never come
(`step_exists_case`, `runFor_total`). -/
def Session.afterRun (c : Session) (ran : Bool) : Host.Outcome State Fault Refusal → Session × Response
  | .next t => (⟨t, c.begun || ran⟩, .outcome t.run.outcome)
  | .fault _ => (c, .notAllowed)
  | .refused _ => (c, .notAllowed)

/-- The transactions (R167): LOAD, SETREG and SETPC only before the first cycle, STEP only while `Running`. -/
def Session.transact (c : Session) : Transaction → Session × Response
  | .reset => (Session.fresh, .done)
  | .load offset bytes =>
    if c.begun then (c, .notAllowed)
    else match loadProgram c.machine.mem offset bytes with
      | some m => ({ c with machine := { c.machine with mem := m } }, .done)
      | none => (c, .loadFailed)
  | .setReg i v => if c.begun then (c, .notAllowed) else ({ c with machine := c.machine.writeReg i v }, .done)
  | .setPc a => if c.begun then (c, .notAllowed) else ({ c with machine := c.machine.setPc a }, .done)
  | .step => if c.machine.run.terminal then (c, .notAllowed) else c.afterRun true (step c.machine)
  | .run budget =>
    c.afterRun (decide (budget ≠ 0) && !c.machine.run.terminal) (runFor budget c.machine)
  | .stop => (c, .done)
  | .read e => (c, .value (c.machine.element e))
  | .status => (c, .status c.machine.run.statusWord)

/-- A sequence of transactions, keeping the last session (R171). -/
def Session.transactAll (c : Session) (ts : List Transaction) : Session :=
  ts.foldl (fun c t => (c.transact t).1) c

/-- The transactions of boot step 2: "any number of LOAD, SETREG and SETPC transactions" (R171). -/
def Transaction.prepares : Transaction → Bool
  | .load _ _ => true
  | .setReg _ _ => true
  | .setPc _ => true
  | .reset => false
  | .step => false
  | .run _ => false
  | .stop => false
  | .read _ => false
  | .status => false

end Sys2Proof.Machine
end

