-- ==== Sys2Proof/Machine/Assembler.lean ====
section
/-! DEFINITION. The assembler syntax of spec/30_encoding.md R70 (decision D25), in which the spec writes programs.

It is notation, no part of the machine: an assembled program reaches the machine only through LOAD transactions. What
R70 leaves to the reader (white space, the shape of a number and of a label, where an unplaced program begins, a label
directly before `.org`, words placed twice) is DESIGN CHOICE, log entry 6. -/

namespace Sys2Proof.Machine.Asm

/-- A label's text. -/
abbrev Label := List Char

/-- One statement (R70). -/
inductive Statement where
  /-- An instruction whose operands are numbers. -/
  | instr (r : RawInstr)
  /-- `CALL <label>`. -/
  | callLabel (target : Label)
  /-- `.word <v>`: a raw word, "including any unimplemented opcode". -/
  | word (v : Nat)
  /-- `.org <a>`: the address of the next word. -/
  | org (a : Nat)
  /-- `<label>:` binds the label to the address of the next word (before a `.org`: see `bindings`). -/
  | label (name : Label)
  deriving DecidableEq, Repr

/-! ### From statements to words -/

/-- Where the next word stands after this statement: every instruction and raw word takes two bytes (R60). -/
def Statement.after (loc : Nat) : Statement → Nat
  | .instr _ => loc + 2
  | .callLabel _ => loc + 2
  | .word _ => loc + 2
  | .org a => a
  | .label _ => loc

/-- The statements that emit a word. -/
def Statement.emitsWord : Statement → Bool
  | .instr _ => true
  | .callLabel _ => true
  | .word _ => true
  | .org _ => false
  | .label _ => false

/-- How many words these statements emit. -/
def wordCount (program : List Statement) : Nat := program.countP Statement.emitsWord

/-- The address each label is bound to, for a program whose next word stands at `loc`. R70 binds a label "to the address of
the next word"; that a label directly before `.org` keeps the address counted so far, and not the one `.org` sets, is
DESIGN CHOICE, log entry 6. -/
def bindings : Nat → List Statement → List (Label × Nat)
  | _, [] => []
  | loc, st :: rest =>
    match st with
    | .label name => (name, loc) :: bindings loc rest
    | st => bindings (st.after loc) rest

/-- The words with their addresses, in the order of the text; none when an operand does not fit or a label is not bound.
That words which `.org` places over one another or beyond memory are emitted all the same is DESIGN CHOICE, log entry 6. -/
def emit (bound : List (Label × Nat)) : Nat → List Statement → Option (List (Nat × Word))
  | _, [] => some []
  | loc, st :: rest =>
    let tail := emit bound (st.after loc) rest
    match st with
    | .instr r => r.toInstr.bind fun i => tail.map ((loc, encode i) :: ·)
    | .callLabel target =>
      (bound.lookup target).bind fun a =>
        (RawInstr.call a).toInstr.bind fun i => tail.map ((loc, encode i) :: ·)
    | .word v => if wordFits v then tail.map ((loc, BitVec.ofNat 16 v) :: ·) else none
    | .org _ => tail
    | .label _ => tail

/-- Both passes, from address 0. A label bound twice is rejected. Both are DESIGN CHOICE, log entry 6. -/
def assemble (program : List Statement) : Option (List (Nat × Word)) :=
  let bound := bindings 0 program
  if (bound.map (·.1)).Nodup then emit bound 0 program else none

/-- The LOAD transactions that put an assembled program into memory, big-endian (spec/20_memory.md R42). -/
def loads (image : List (Nat × Word)) : List Transaction :=
  image.map fun (a, w) => .load a [(bytesOfWord w).1, (bytesOfWord w).2]

/-! ### From text to statements -/

/-- A piece of program text. -/
inductive Token where
  | text (cs : List Char)
  | comma
  | plusEq
  | colon
  /-- "Statements are separated by newlines or `;`" (R70). -/
  | separator
  deriving DecidableEq, Repr

/-- The text gathered so far, given in reverse, as a token. -/
def flush (acc : List Char) : List Token := if acc = [] then [] else [.text acc.reverse]

/-- Cut the text into tokens; `acc` is the text gathered so far, in reverse. -/
def lex : List Char → List Char → List Token
  | acc, [] => flush acc
  | acc, '+' :: '=' :: rest => flush acc ++ .plusEq :: lex [] rest
  | acc, c :: rest =>
    if c = '\n' ∨ c = ';' then flush acc ++ .separator :: lex [] rest
    else if c = ' ' ∨ c = '\t' ∨ c = '\r' then flush acc ++ lex [] rest
    else if c = ',' then flush acc ++ .comma :: lex [] rest
    else if c = ':' then flush acc ++ .colon :: lex [] rest
    else lex (c :: acc) rest

/-- The tokens of each statement; `acc` holds those of the current one, in reverse. -/
def splitStatements : List Token → List Token → List (List Token)
  | acc, [] => [acc.reverse]
  | acc, .separator :: rest => acc.reverse :: splitStatements [] rest
  | acc, t :: rest => splitStatements (t :: acc) rest

/-- A digit's value below `base`. -/
def digit (base : Nat) (c : Char) : Option Nat :=
  let v :=
    if '0' ≤ c ∧ c ≤ '9' then c.toNat - '0'.toNat
    else if 'a' ≤ c ∧ c ≤ 'f' then c.toNat - 'a'.toNat + 10
    else if 'A' ≤ c ∧ c ≤ 'F' then c.toNat - 'A'.toNat + 10
    else base
  if v < base then some v else none

/-- Digits in the given base, most significant first; none for no digits or a character that is no digit. -/
def digits (base : Nat) (cs : List Char) : Option Nat :=
  if cs = [] then none
  else cs.foldl (fun n c => n.bind fun n => (digit base c).map (n * base + ·)) (some 0)

/-- A number: hexadecimal "written `0x…`" (spec/00_scope.md R8), else decimal. -/
def number : List Char → Option Nat
  | '0' :: 'x' :: cs => digits 16 cs
  | cs => digits 10 cs

/-- A register: `reg<n>` with n decimal 0..15 or one hexadecimal digit, or `V` and one hexadecimal digit (R70). -/
def register : List Char → Option Nat
  | 'r' :: 'e' :: 'g' :: [c] => digit 16 c
  | 'r' :: 'e' :: 'g' :: cs => digits 10 cs
  | 'V' :: [c] => digit 16 c
  | _ => none

/-- A label begins with a letter or an underscore. -/
def isLabel : List Char → Bool
  | [] => false
  | c :: _ => c.isAlpha || c == '_'

/-- One statement without labels, from its tokens (the table of R70, with the accepted synonyms `RET`, `CALL nnn` and
`ADD Vx, Vy`). -/
def parseBody : List Token → Option (List Statement)
  | [] => some []
  | [.text op] =>
    if op = "HALT".toList then some [.instr .halt]
    else if op = "RETURN".toList ∨ op = "RET".toList then some [.instr .ret]
    else none
  | [.text op, .text a] =>
    if op = "CALL".toList then
      match number a with
      | some n => some [.instr (.call n)]
      | none => if isLabel a then some [.callLabel a] else none
    else if op = ".word".toList then (number a).map fun v => [.word v]
    else if op = ".org".toList then (number a).map fun v => [.org v]
    else none
  | [.text op, .text a, sep, .text b] =>
    if op = "ADD".toList ∧ (sep = .comma ∨ sep = .plusEq) then
      (register a).bind fun x => (register b).map fun y => [.instr (.add x y)]
    else none
  | _ => none

/-- One statement with the labels before it. -/
def parseStatement : List Token → Option (List Statement)
  | .text l :: .colon :: rest =>
    if isLabel l then (parseStatement rest).map (.label l :: ·) else none
  | ts => parseBody ts

/-- All statements of a program's tokens. -/
def parseAll : List (List Token) → Option (List Statement)
  | [] => some []
  | ts :: rest => (parseStatement ts).bind fun now => (parseAll rest).map (now ++ ·)

/-- The statements of a program text. -/
def parse (source : List Char) : Option (List Statement) := parseAll (splitStatements [] (lex [] source))

/-- A program text, assembled (R70). -/
def assembleText (source : List Char) : Option (List (Nat × Word)) := (parse source).bind assemble

/-! ### From instructions to text -/

/-- A hexadecimal digit, as R70 and R8 write it. -/
def hexDigit (d : Fin 16) : Char :=
  ['0', '1', '2', '3', '4', '5', '6', '7', '8', '9', 'A', 'B', 'C', 'D', 'E', 'F'].getD d.val '0'

/-- The `len` low hexadecimal digits of a number, most significant first. -/
def hexText : Nat → Nat → List Char
  | 0, _ => []
  | len + 1, n => hexText len (n / 16) ++ [hexDigit ⟨n % 16, Nat.mod_lt n (by decide)⟩]

/-- `0` to `15` in decimal. -/
def regNumberText (r : RegIdx) : List Char :=
  if r.val < 10 then [hexDigit r] else ['1', hexDigit ⟨r.val - 10, by have := r.isLt; omega⟩]

/-- An instruction in the spelling of R70's table: `CALL <addr>` with a hexadecimal number, `ADD reg<x>, reg<y>` with
decimal register numbers. -/
def spell : Instr → List Char
  | .halt => "HALT".toList
  | .ret => "RETURN".toList
  | .call addr => "CALL 0x".toList ++ hexText 3 addr.toNat
  | .add x y => "ADD reg".toList ++ regNumberText x ++ ", reg".toList ++ regNumberText y

end Sys2Proof.Machine.Asm
end

