-- ==== Sys2Proof/Safety.lean ====
section
/-! DEFINITION. The terms in which claims about states and runs are made: well-formed states, launch states, the end of
a run, and what of the state a program can observe. -/

namespace Sys2Proof.Machine

/-- A state whose memory is in canonical form. The other bounds of spec/10_state.md (sixteen registers, sixteen entries,
`0 <= sp <= 16`) hold by `State`'s types. -/
abbrev State.wf (s : State) : Prop := s.mem.wf = true

/-- The launch state: reset with the host's loads, register values and `pc` applied, "`sp = 0`, the stack all zero and
`run = Running`" (spec/70_reset_and_hazards.md R171). -/
structure State.Launch (s : State) : Prop where
  running : s.run = .running
  stackEmpty : s.sp = 0
  stackZero : s.stack = Vector.replicate 16 0x0000
  memory : s.wf

/-- `t` is the state after `n` steps from `s`. -/
def Reaches (n : Nat) (s t : State) : Prop := runFor n s = .next t

/-- The run from `s` ends with this outcome: the first state, reached by cycles, whose run state is terminal records it
(spec/40_cycle.md R89). A terminal state stays, so any later state records it too. -/
def EndsWith (s : State) (o : RunOutcome) : Prop := ∃ n t, Reaches n s t ∧ t.run.outcome = some o

/-- A safe run: no state it reaches is `Faulted`. -/
def SafeRun (s : State) : Prop := ∀ n t, Reaches n s t → ∀ reason, t.run ≠ .faulted reason

/-- The bound on `pc` during a run whose launch `pc` is at most `bound`, with the bound on saved addresses that RETURN
relies on (spec/10_state.md R25). -/
structure State.PcBounded (bound : Nat) (s : State) : Prop where
  pc : s.pc.toNat ≤ max bound 0x1000
  saved : ∀ k : Fin 16, k.val < s.sp.val → (s.stackEntry k).toNat ≤ 0x1000

/-- The two states differ at most in stale call-stack entries, those at indices `>= sp` (spec/10_state.md R33). -/
structure State.SameButStale (s t : State) : Prop where
  regs : s.regs = t.regs
  pc : s.pc = t.pc
  sp : s.sp = t.sp
  run : s.run = t.run
  mem : s.mem = t.mem
  held : ∀ k : Fin 16, k.val < s.sp.val → s.stackEntry k = t.stackEntry k

end Sys2Proof.Machine
end

