-- ==== Sys2Proof/Certificates/Slice0/Obligations.lean ====
section
/-! DEFINITION. The statements about the model. Each docstring names the rule of spec/ it formalises, or says what the
statement rests on. -/

open Sys2Proof Sys2Proof.Machine

/-! ### Encoding (spec/30_encoding.md) -/

/-- Words written out from the encodings of R64 and R65, and neighbours of them that match no row (R67). -/
def Obligations.DecodesWordsOfTheTable : Prop :=
  decodeWord 0b0000000000000000 = some .halt ∧
  decodeWord 0b0000000011101110 = some .ret ∧
  decodeWord 0b0010000100000000 = some (.call 0x100) ∧
  decodeWord 0b0010111111111111 = some (.call 0xFFF) ∧
  decodeWord 0b1000000000010100 = some (.add 0 1) ∧
  decodeWord 0b1000101010110100 = some (.add 0xA 0xB) ∧
  decodeWord 0x0001 = none ∧ decodeWord 0x00E0 = none ∧ decodeWord 0x01EE = none ∧
  decodeWord 0x8125 = none ∧ decodeWord 0x9124 = none ∧ decodeWord 0xFFFF = none

/-- R61: each field is its range of bits, `addr` is `x`, `y`, `n` together and `byte` is `y`, `n` together. -/
def Obligations.FieldsAreTheirBitRanges : Prop :=
  ∀ w : Word,
    (decodeFields w).op.toNat = w.toNat / 4096 ∧
    (decodeFields w).x.toNat = w.toNat / 256 % 16 ∧
    (decodeFields w).y.toNat = w.toNat / 16 % 16 ∧
    (decodeFields w).n.toNat = w.toNat % 16 ∧
    (decodeFields w).addr.toNat = w.toNat % 4096 ∧
    (decodeFields w).byte.toNat = w.toNat % 256 ∧
    (decodeFields w).addr.toNat =
      256 * (decodeFields w).x.toNat + 16 * (decodeFields w).y.toNat + (decodeFields w).n.toNat ∧
    (decodeFields w).byte.toNat = 16 * (decodeFields w).y.toNat + (decodeFields w).n.toNat

/-- Decode and encode agree: for every instruction, with every operand at every value, its word decodes to it, and so do
its two bytes, leaving the bytes after them. -/
def Obligations.DecodeOfEncodeIsTheInstruction : Prop :=
  ∀ (i : Instr) (rest : List Byte),
    decodeWord (encode i) = some i ∧ decodeBytes (encodeBytes i ++ rest) = .ok (i, rest)

/-- No word has a second spelling: a word that decodes is the encoding of what it decodes to. -/
def Obligations.EncodeOfDecodeIsTheWord : Prop :=
  ∀ (w : Word) (i : Instr), decodeWord w = some i → encode i = w

/-- The dispatcher that compares fields chooses the row that the table's masks select, every word selects at most one
row, and a word without a row is an unimplemented opcode (R65, R66, R67). -/
def Obligations.DispatchFollowsTheMaskTable : Prop :=
  ∀ w : Word,
    (opcodeRows.filter fun r => r.selects w).map (·.mnemonic) = ((decodeWord w).map Instr.mnemonic).toList

/-- R68: for each top nibble, how many of its 4096 words select an instruction and how many none; the totals over all
65536 words; and how many words select each instruction. -/
def Obligations.EncodingSpaceCounts : Prop :=
  let count (p : Option Instr → Bool) (op : Nibble) : Nat :=
    (List.range 4096).countP fun k => p (decodeWord (op ++ BitVec.ofNat 12 k))
  let total (p : Option Instr → Bool) : Nat := ((List.range 16).map fun op => count p (BitVec.ofNat 4 op)).sum
  let named (m : String) (i : Option Instr) : Bool := i.map Instr.mnemonic == some m
  (∀ op, count Option.isSome op = if op = 0x0 then 2 else if op = 0x2 then 4096 else if op = 0x8 then 256 else 0) ∧
  (∀ op, count Option.isNone op =
    if op = 0x0 then 4094 else if op = 0x2 then 0 else if op = 0x8 then 3840 else 4096) ∧
  total Option.isSome = 4354 ∧ total Option.isNone = 61182 ∧
  total (named "HALT") = 1 ∧ total (named "RETURN") = 1 ∧ total (named "CALL") = 4096 ∧ total (named "ADD") = 256 ∧
  decodeWord 0x0000 = some .halt ∧ decodeWord 0x00EE = some .ret ∧ count (named "CALL") 0x2 = 4096 ∧
  (∀ w : Word, (decodeFields w).op = 0x8 → ((decodeWord w).isSome = true ↔ (decodeFields w).n = 0x4))

/-- From R70's table, of statements already parsed (the text is the subject of the last section of this file): an
instruction written with numbers assembles to its encoding, a raw word to itself, and operands out of range are
rejected. That a program without `.org` begins at address 0 is the model's choice, log entry 6. -/
def Obligations.AssemblerEncodesItsSyntax : Prop :=
  (∀ i : Instr, Asm.assemble [.instr i.toRaw] = some [(0, encode i)]) ∧
  encode .halt = 0x0000 ∧ encode .ret = 0x00EE ∧
  (∀ addr : Addr, (encode (.call addr)).toNat = 0x2000 + addr.toNat) ∧
  (∀ x y : RegIdx, (encode (.add x y)).toNat = 0x8004 + x.val * 2 ^ 8 + y.val * 2 ^ 4) ∧
  (∀ v : Nat, v < 65536 → Asm.assemble [.word v] = some [(0, BitVec.ofNat 16 v)]) ∧
  (∀ r : RawInstr, r.wellFormed = false → Asm.assemble [.instr r] = none)

/-! ### Fetch and cycle (spec/20_memory.md, spec/40_cycle.md) -/

/-- R42, at every address the fetch is in bounds for, odd ones too (R44): the word is big-endian. Above 0xFFE there is no
word (R43). -/
def Obligations.FetchReadsBigEndianWord : Prop :=
  ∀ s : State,
    (s.pc.toNat ≤ 0xFFE →
      ∃ w, s.fetch = some w ∧ w.toNat = 256 * (s.mem.read s.pc.toNat).toNat + (s.mem.read (s.pc.toNat + 1)).toNat) ∧
    (0xFFE < s.pc.toNat → s.fetch = none)

/-- A step runs the decoded instruction: when the bytes at `pc` decode to `i`, a running machine's step is `exec i` on
the state whose `pc` has been advanced by 2 (R81, R83), and the advance does not wrap (R25). -/
def Obligations.StepExecutesDecodedInstruction : Prop :=
  ∀ (s : State) (i : Instr), s.run = .running → s.pc.toNat ≤ 0xFFE →
    decodeBytes [s.mem.read s.pc.toNat, s.mem.read (s.pc.toNat + 1)] = .ok (i, []) →
    step s = exec i { s with pc := s.pc + 2 } ∧ (s.pc + 2).toNat = s.pc.toNat + 2

/-- R132: a word that matches no row raises `UnimplementedOpcode` after the advance, and nothing else changes. -/
def Obligations.UnmatchedWordRaisesUnimplementedOpcode : Prop :=
  ∀ (s : State) (w : Word), s.run = .running → s.fetch = some w → decodeWord w = none →
    step s = .next { s with pc := s.pc + 2, run := .faulted .unimplementedOpcode }

/-- R82: a fetch out of bounds raises before the advance, so `pc` keeps the failing address. -/
def Obligations.FetchOutOfBoundsKeepsPc : Prop :=
  ∀ s : State, s.run = .running → 0xFFE < s.pc.toNat →
    step s = .next { s with run := .faulted .outOfBoundsFetch }

/-- The step is total: it never answers a host fault or a refusal, on any state. On terminal states this is the model's
choice, log entry 1: the spec says only that they have no cycle (R80). -/
def Obligations.StepAlwaysAnswersNext : Prop :=
  ∀ s : State, ∃ t, step s = .next t

/-- The word the host places with `withFetchWord` is the one the very next step runs (log entry 4). -/
def Obligations.PlacedWordIsExecuted : Prop :=
  ∀ (s : State) (w : Nat) (i : Instr), s.wf → w < 65536 → decodeTableWord 16 w = some i →
    step (s.withFetchWord 16 w) = exec i (s.withFetchWord 16 w).advance

/-! ### Instructions (spec/41_control.md, spec/42_arithmetic.md) -/

/-- R102: HALT completes from every state; only `run` changes, and over the whole cycle also `pc`, by 2. -/
def Obligations.HaltEndsTheRun : Prop :=
  decodeWord 0x0000 = some .halt ∧
  (∀ s : State, exec .halt s = .next { s with run := .halted }) ∧
  (∀ s : State, s.run = .running → s.fetch = some 0x0000 →
    step s = .next { s with pc := s.pc + 2, run := .halted })

/-- R101, R103: RETURN completes when the stack is not empty, restoring `pc` from the top entry, which keeps its value;
on an empty stack it raises `StackUnderflow`. Nothing else changes. -/
def Obligations.ReturnPopsPc : Prop :=
  decodeWord 0x00EE = some .ret ∧
  (∀ (s : State) (k : Fin 16), s.sp.val = k.val + 1 →
    exec .ret s = .next { s with sp := k.castSucc, pc := s.stackEntry k }) ∧
  (∀ s : State, s.sp.val = 0 → exec .ret s = .next { s with run := .faulted .stackUnderflow })

/-- R134: over the whole cycle, RETURN on an empty stack leaves `pc` at its address plus 2 and `sp = 0`. -/
def Obligations.ReturnOnEmptyStackFaults : Prop :=
  ∀ s : State, s.run = .running → s.fetch = some 0x00EE → s.sp.val = 0 →
    step s = .next { s with pc := s.pc + 2, run := .faulted .stackUnderflow }

/-- R100, R104: CALL completes when the stack is not full: the free slot takes `pc`, which is the return address, `sp`
rises by 1 and `pc` becomes the address operand; no other entry, no register, no memory byte and not `run` changes. On a
full stack it raises `StackOverflow` and writes nothing else. -/
def Obligations.CallPushesPcAndJumps : Prop :=
  (∀ addr : Addr, decodeWord (0x2000 + addr.setWidth 16) = some (.call addr)) ∧
  (∀ (s : State) (addr : Addr) (k : Fin 16), s.sp.val = k.val →
    ∃ t, exec (.call addr) s = .next t ∧
      t.stackEntry k = s.pc ∧ (∀ j, j ≠ k → t.stackEntry j = s.stackEntry j) ∧
      t.sp.val = s.sp.val + 1 ∧ t.pc.toNat = addr.toNat ∧
      (∀ r, t.readReg r = s.readReg r) ∧ (∀ a, t.mem.read a = s.mem.read a) ∧ t.run = s.run) ∧
  (∀ (s : State) (addr : Addr), s.sp.val = 16 →
    exec (.call addr) s = .next { s with run := .faulted .stackOverflow })

/-- R133: over the whole cycle, CALL on a full stack leaves `pc` at its address plus 2, `sp = 16` and the stack as it
was. -/
def Obligations.CallOnFullStackFaults : Prop :=
  ∀ (s : State) (w : Word) (addr : Addr), s.run = .running → s.fetch = some w → decodeWord w = some (.call addr) →
    s.sp.val = 16 → step s = .next { s with pc := s.pc + 2, run := .faulted .stackOverflow }

/-- R120: ADD completes from every state with every pair of registers. With `a` and `b` the operands' values before, VF
becomes the carry out, `reg[x]` the sum modulo 256 unless `x` is 0xF, and nothing else changes. -/
def Obligations.AddWritesSumThenCarry : Prop :=
  (∀ x y : RegIdx, decodeWord (BitVec.ofNat 16 (0x8004 + 256 * x.val + 16 * y.val)) = some (.add x y)) ∧
  ∀ (s : State) (x y : RegIdx), ∃ t, exec (.add x y) s = .next t ∧
    (t.readReg 0xF).toNat = (if (s.readReg x).toNat + (s.readReg y).toNat > 255 then 1 else 0) ∧
    (x ≠ 0xF → (t.readReg x).toNat = ((s.readReg x).toNat + (s.readReg y).toNat) % 256) ∧
    (∀ r, r ≠ x → r ≠ 0xF → t.readReg r = s.readReg r) ∧
    t.pc = s.pc ∧ t.sp = s.sp ∧ (∀ k, t.stackEntry k = s.stackEntry k) ∧
    (∀ a, t.mem.read a = s.mem.read a) ∧ t.run = s.run

/-- R121, R122: the carry is `floor((a + b) / 256)`, and the pair of sum and carry is symmetric in the operands. -/
def Obligations.SumAndCarryAreSymmetric : Prop :=
  ∀ a b : Byte,
    (sumByte a b).toNat = (a.toNat + b.toNat) % 256 ∧ (carryByte a b).toNat = (a.toNat + b.toNat) / 256 ∧
    (sumByte a b, carryByte a b) = (sumByte b a, carryByte b a)

/-! ### Frames and whole-machine rules -/

/-- The frame of the instructions that name no register (R22, R107): HALT, RETURN and CALL, whether they complete or
fault, leave every register and every memory byte as they were. -/
def Obligations.ControlInstructionsKeepRegistersAndMemory : Prop :=
  ∀ (s t : State) (addr : Addr),
    exec .halt s = .next t ∨ exec .ret s = .next t ∨ exec (.call addr) s = .next t →
    (∀ r, t.readReg r = s.readReg r) ∧ (∀ a, t.mem.read a = s.mem.read a)

/-- R22: in a whole step, a register changes only under ADD, and only its `x` or VF. -/
def Obligations.OnlyAddWritesRegisters : Prop :=
  ∀ (s t : State) (r : RegIdx), step s = .next t → t.readReg r ≠ s.readReg r →
    ∃ w x y, s.fetch = some w ∧ decodeWord w = some (.add x y) ∧ (r = x ∨ r = 0xF)

/-- From R26 and R27: in a whole step, only CALL moves `sp` up and only RETURN moves it down, by one; and an entry changes only
under CALL, at the old `sp`, to the return address. -/
def Obligations.OnlyCallAndReturnUseTheStack : Prop :=
  ∀ s t : State, step s = .next t →
    (t.sp ≠ s.sp → ∃ w, s.fetch = some w ∧
      ((∃ addr, decodeWord w = some (.call addr) ∧ t.sp.val = s.sp.val + 1) ∨
        (decodeWord w = some .ret ∧ t.sp.val + 1 = s.sp.val))) ∧
    (∀ k, t.stackEntry k ≠ s.stackEntry k → ∃ w addr, s.fetch = some w ∧ decodeWord w = some (.call addr) ∧
      k.val = s.sp.val ∧ t.stackEntry k = s.pc + 2)

/-- R24, R106: in a whole step, `pc` ends elsewhere than where it stood or 2 further only under CALL, at its operand, or
RETURN, at the top entry. -/
def Obligations.OnlyCallAndReturnTransferControl : Prop :=
  ∀ s t : State, step s = .next t → t.pc ≠ s.pc → t.pc ≠ s.pc + 2 →
    ∃ w, s.fetch = some w ∧
      ((∃ addr, decodeWord w = some (.call addr) ∧ t.pc.toNat = addr.toNat) ∨
        (decodeWord w = some .ret ∧ ∃ k : Fin 16, s.sp.val = k.val + 1 ∧ t.pc = s.stackEntry k))

/-- R40, R51: no number of cycles changes memory, so every fetch of a run sees the image of its start. -/
def Obligations.RunsNeverWriteMemory : Prop :=
  ∀ (n : Nat) (s t : State), Reaches n s t → t.mem = s.mem ∧ t.fetch = { t with mem := s.mem }.fetch

/-- R105: a CALL at `s`, then `n` cycles in which `sp` never falls below its value after the CALL (no unmatched RETURN)
and after which it has that value again (no unmatched CALL), then a RETURN: the RETURN restores `pc` to the CALL's
address plus 2 and `sp` to its value before the CALL. With `n = 0` the CALL's target is itself the RETURN. -/
def Obligations.MatchingReturnRestoresPcAndSp : Prop :=
  ∀ (n : Nat) (s u t : State) (w w' : Word) (addr : Addr),
    s.run = .running → s.fetch = some w → decodeWord w = some (.call addr) → s.sp.val < 16 → step s = .next u →
    Reaches n u t → (∀ m v, m ≤ n → Reaches m u v → u.sp ≤ v.sp) → t.sp = u.sp →
    t.run = .running → t.fetch = some w' → decodeWord w' = some .ret →
    ∃ r, step t = .next r ∧ r.pc.toNat = s.pc.toNat + 2 ∧ r.sp = s.sp ∧ r.run = .running

/-- R33: "Stale entries at indices `>= sp` are hidden state." Two states that differ only there step to states that
differ only there: no cycle can tell them apart. -/
def Obligations.StaleEntriesAreNeverObserved : Prop :=
  ∀ s t s' t' : State, s.SameButStale t → step s = .next s' → step t = .next t' → s'.SameButStale t'

/-! ### Invariants -/

/-- R32, R160: every field after `new()`; and the RESET transaction gives that machine, with no cycle begun, from every
session at any time (R162, R167). -/
def Obligations.ResetValues : Prop :=
  (∀ r, State.reset.readReg r = 0x00) ∧ State.reset.pc = 0x0000 ∧ State.reset.sp.val = 0 ∧
  (∀ k, State.reset.stackEntry k = 0x0000) ∧ (∀ a, a < 4096 → State.reset.mem.read a = 0x00) ∧
  State.reset.run = .running ∧
  (∀ c : Session, c.transact .reset = (⟨State.reset, false⟩, .done))

/-- Reset meets the invariants below: canonical memory, a launch state, and the bound on `pc`. -/
def Obligations.ResetMeetsTheInvariants : Prop :=
  State.reset.wf ∧ State.reset.Launch ∧ State.reset.PcBounded 0

/-- The canonical form of memory is kept by every step and by every transaction of the host. -/
def Obligations.CanonicalMemoryIsKept : Prop :=
  (∀ s t : State, s.wf → step s = .next t → t.wf) ∧
  (∀ (c : Session) (x : Transaction), c.machine.wf → (c.transact x).1.machine.wf)

/-- The bound on `pc` and on the saved addresses is kept by every step, whatever the bound and the state. -/
def Obligations.PcBoundIsKept : Prop :=
  ∀ (bound : Nat) (s t : State), s.PcBounded bound → step s = .next t → t.PcBounded bound

/-- R25: during a run, `pc` is at most max(`START_PC`, 0x1000), and no advance after a fetch wraps. -/
def Obligations.PcNeverWraps : Prop :=
  ∀ (n : Nat) (s t : State), s.Launch → Reaches n s t →
    t.pc.toNat ≤ max s.pc.toNat 0x1000 ∧ (∀ w, t.fetch = some w → t.advance.pc.toNat = t.pc.toNat + 2)

/-- Equal memories are equal data: canonical lists that read alike at every address are the same list. -/
def Obligations.CanonicalMemoriesAreDeterminedByReads : Prop :=
  ∀ m m' : Memory, m.wf = true → m'.wf = true → (∀ a, a < 4096 → m.read a = m'.read a) → m = m'

/-! ### Faults and the end of a run (spec/60_exceptions.md, spec/40_cycle.md) -/

/-- R130: the four cause codes; exactly when a cycle ends in each fault; HALT and ADD raise none; a fault is not
recovered from within the run. -/
def Obligations.FaultsAndTheirConditions : Prop :=
  ([Fault.outOfBoundsFetch, .stackOverflow, .stackUnderflow, .unimplementedOpcode].map Fault.code = [0, 1, 2, 3]) ∧
  (∀ s t : State, s.run = .running → step s = .next t →
    (t.run = .faulted .outOfBoundsFetch ↔ 0xFFE < s.pc.toNat) ∧
    (t.run = .faulted .unimplementedOpcode ↔ ∃ w, s.fetch = some w ∧ decodeWord w = none) ∧
    (t.run = .faulted .stackOverflow ↔
      ∃ w addr, s.fetch = some w ∧ decodeWord w = some (.call addr) ∧ s.sp.val = 16) ∧
    (t.run = .faulted .stackUnderflow ↔ ∃ w, s.fetch = some w ∧ decodeWord w = some .ret ∧ s.sp.val = 0)) ∧
  (∀ (s t : State) (x y : RegIdx) (f : Fault), s.run = .running →
    exec .halt s = .next t ∨ exec (.add x y) s = .next t → t.run ≠ .faulted f) ∧
  (∀ (n : Nat) (s t : State) (f : Fault), s.run = .faulted f → Reaches n s t → t.run = .faulted f)

/-- R136: taking a fault changes only `run`, beyond the advance for the three faults raised after the fetch. From what is
left, the faulting instruction's address can be read off (R137). -/
def Obligations.FaultsLeaveExactState : Prop :=
  ∀ (s t : State) (f : Fault), s.run = .running → step s = .next t → t.run = .faulted f →
    t = { s with pc := (if f = .outOfBoundsFetch then s.pc else s.pc + 2), run := .faulted f } ∧
    (f = .stackOverflow → t.sp.val = 16) ∧ (f = .stackUnderflow → t.sp.val = 0) ∧
    (if f = .outOfBoundsFetch then t.pc else t.pc - 2) = s.pc

/-- From R87: the run-state transitions. That a step of a terminal machine answers that machine is the model's choice,
log entry 1. -/
def Obligations.RunStateTransitions : Prop :=
  ∀ s t : State, step s = .next t →
    (s.run = .running →
      (t.run = .halted ↔ ∃ w, s.fetch = some w ∧ decodeWord w = some .halt) ∧
      (t.run = .running ↔ ∃ w, s.fetch = some w ∧
        ((∃ x y, decodeWord w = some (.add x y)) ∨ (∃ addr, decodeWord w = some (.call addr) ∧ s.sp.val ≠ 16) ∨
          (decodeWord w = some .ret ∧ s.sp.val ≠ 0)))) ∧
    (s.run ≠ .running → t = s)

/-- From R89: a terminal state is final, so a run has at most one outcome. That cycles counted beyond the end answer the
terminal state is the model's choice, log entry 1. -/
def Obligations.OutcomeIsFinal : Prop :=
  (∀ (n m : Nat) (s t t' : State), Reaches n s t → t.run ≠ .running → Reaches (n + m) s t' → t' = t) ∧
  (∀ (s : State) (o o' : RunOutcome), EndsWith s o → EndsWith s o' → o = o')

/-- R90: "Every run of this hardware reaches a terminal state after finitely many cycles". The rule says it of launch
states; here it is said of every state. -/
def Obligations.EveryRunTerminates : Prop :=
  ∀ s : State, ∃ n t, Reaches n s t ∧ t.run ≠ .running

/-- A run is safe exactly when it ends with the success outcome. -/
def Obligations.SafeRunsAreThoseThatHalt : Prop :=
  ∀ s : State, SafeRun s ↔ EndsWith s .halted

/-- R131 as it is written: the fault's condition, and the list of the only ways a running machine comes to a `pc` above
0xFFE after a cycle. EXPECTED TO FAIL: the list overlooks odd addresses (an ADD at 0xFFD leaves `pc = 0xFFF`, a CALL at
0xFFD saves 0xFFF). The model follows the fault's condition; the statement after this one has the whole list. -/
def Obligations.OutOfBoundsOnlyInTheListedWays : Prop :=
  (∀ s : State, s.run = .running → 0xFFE < s.pc.toNat →
    step s = .next { s with run := .faulted .outOfBoundsFetch }) ∧
  (∀ (n : Nat) (s u t : State), s.Launch → Reaches n s u → u.run = .running → step u = .next t →
    t.run = .running → 0xFFE < t.pc.toNat →
    (u.pc = 0xFFE ∧ t.pc = 0x1000) ∨
    (∃ w, u.fetch = some w ∧ decodeWord w = some (.call 0xFFF)) ∨
    (∃ w, u.fetch = some w ∧ decodeWord w = some .ret ∧ t.pc = 0x1000))

/-- The ways a running machine comes to a `pc` above 0xFFE after a cycle of a run: R131's list with the odd addresses
that R44 allows. DEDUCED (log entry 2). -/
def Obligations.WaysToAFetchOutOfBounds : Prop :=
  ∀ (n : Nat) (s u t : State), s.Launch → Reaches n s u → u.run = .running → step u = .next t →
    t.run = .running → 0xFFE < t.pc.toNat →
    ∃ w, u.fetch = some w ∧
      (((∃ x y, decodeWord w = some (.add x y)) ∧ (u.pc = 0xFFD ∧ t.pc = 0xFFF ∨ u.pc = 0xFFE ∧ t.pc = 0x1000)) ∨
        (decodeWord w = some (.call 0xFFF) ∧ t.pc = 0xFFF) ∨
        (decodeWord w = some .ret ∧ (t.pc = 0xFFF ∨ t.pc = 0x1000)))

/-- R183, R171: a running machine whose word at `pc` was never loaded, or is zero, halts in that cycle; so does a machine
that was reset, preset at any `pc` up to 0xFFE, and never loaded. -/
def Obligations.UnloadedMemoryHalts : Prop :=
  (∀ s : State, s.run = .running → s.pc.toNat ≤ 0xFFE →
    s.mem.read s.pc.toNat = 0x00 → s.mem.read (s.pc.toNat + 1) = 0x00 →
    step s = .next { s with pc := s.pc + 2, run := .halted }) ∧
  (∀ a : Word, a.toNat ≤ 0xFFE →
    ((Session.fresh.transactAll [.setPc a]).transact .step).2 = .outcome (some .halted))

/-! ### Host interface (spec/70_reset_and_hazards.md, spec/10_state.md R31) -/

/-- R31: the STATUS word. STATE is 0, 1 or 2 and never 3; CAUSE is the cause code when STATE is 2 and 0 otherwise. -/
def Obligations.StatusWordFields : Prop :=
  (∀ r : RunState, (r.statusWord.extractLsb' 0 2 = r.stateField ∧ r.statusWord.extractLsb' 2 2 = r.causeField) ∧
    r.statusWord.extractLsb' 0 2 ≠ 3) ∧
  RunState.statusWord .running = 0b0000 ∧ RunState.statusWord .halted = 0b0001 ∧
  RunState.statusWord (.faulted .outOfBoundsFetch) = 0b0010 ∧
  RunState.statusWord (.faulted .stackOverflow) = 0b0110 ∧
  RunState.statusWord (.faulted .stackUnderflow) = 0b1010 ∧
  RunState.statusWord (.faulted .unimplementedOpcode) = 0b1110

/-- R168: LOAD fails, changing nothing, exactly when the sequence would overflow memory; otherwise it writes the
sequence at the offset and nothing else. -/
def Obligations.LoadCopiesOrFails : Prop :=
  ∀ (c : Session) (offset : Nat) (bytes : List Byte), c.begun = false → c.machine.wf →
    (4096 < offset + bytes.length → c.transact (.load offset bytes) = (c, .loadFailed)) ∧
    (offset + bytes.length ≤ 4096 → ∃ m, c.transact (.load offset bytes) =
        ({ c with machine := { c.machine with mem := m } }, .done) ∧
      (∀ i (hi : i < bytes.length), m.read (offset + i) = bytes[i]) ∧
      (∀ a, a < offset ∨ offset + bytes.length ≤ a → m.read a = c.machine.mem.read a))

/-- A word loaded big-endian at an address is the word fetched there (R42, R168): the loader's byte order and the
fetch's agree. -/
def Obligations.LoadedWordIsFetched : Prop :=
  ∀ (c : Session) (a : Word) (w : Word), c.begun = false → c.machine.wf → a.toNat ≤ 0xFFE →
    (c.transactAll [.load a.toNat [(bytesOfWord w).1, (bytesOfWord w).2], .setPc a]).machine.fetch = some w

/-- From R171: transactions that write disjoint state may be issued in either order: LOADs that do not overlap, SETREGs of
different registers, and a LOAD, a SETREG and a SETPC among each other. -/
def Obligations.PreparationOrderIsFree : Prop :=
  ∀ (c : Session) (o o' : Nat) (bs bs' : List Byte) (i i' : RegIdx) (v v' : Byte) (a : Word), c.begun = false →
    c.machine.wf →
    (i ≠ i' → c.transactAll [.setReg i v, .setReg i' v'] = c.transactAll [.setReg i' v', .setReg i v]) ∧
    (o + bs.length ≤ o' ∨ o' + bs'.length ≤ o →
      c.transactAll [.load o bs, .load o' bs'] = c.transactAll [.load o' bs', .load o bs]) ∧
    c.transactAll [.load o bs, .setReg i v] = c.transactAll [.setReg i v, .load o bs] ∧
    c.transactAll [.load o bs, .setPc a] = c.transactAll [.setPc a, .load o bs] ∧
    c.transactAll [.setReg i v, .setPc a] = c.transactAll [.setPc a, .setReg i v]

/-- R169, R170: before the first cycle the host sets any register to any value and `pc` to any value, and nothing else
changes. -/
def Obligations.PresetsRegistersAndPc : Prop :=
  ∀ (c : Session) (i : RegIdx) (v : Byte) (a : Word), c.begun = false →
    (∃ s, c.transact (.setReg i v) = (⟨s, false⟩, .done) ∧ s.readReg i = v ∧
      (∀ r, r ≠ i → s.readReg r = c.machine.readReg r) ∧ s = { c.machine with regs := s.regs }) ∧
    c.transact (.setPc a) = (⟨{ c.machine with pc := a }, false⟩, .done)

/-- R171: the launch states are exactly what any number of LOAD, SETREG and SETPC transactions make of a fresh
machine. -/
def Obligations.LaunchStatesAreThePreparedOnes : Prop :=
  ∀ s : State, s.Launch ↔
    ∃ ts : List Transaction, (∀ x ∈ ts, x.prepares = true) ∧ Session.fresh.transactAll ts = ⟨s, false⟩

/-- Once the first cycle has begun, no transaction but RESET, STEP and RUN changes anything, and STEP and RUN change the
machine only by cycles. R174 says that the host must not write then; that a LOAD, SETREG or SETPC it issues all the same
does nothing is the model's choice, log entry 5. -/
def Obligations.HostWritesNothingDuringARun : Prop :=
  ∀ (c : Session) (x : Transaction), c.begun = true → x ≠ .reset →
    (x ≠ .step → (∀ b, x ≠ .run b) → (c.transact x).1 = c) ∧
    (c.transact x).1.begun = true ∧ ∃ n, Reaches n c.machine (c.transact x).1.machine

/-- R173: a READ and a STATUS give the element's value and change nothing, at any cycle boundary. -/
def Obligations.InspectionHasNoEffect : Prop :=
  ∀ c : Session,
    (∀ i, c.transact (.read (.reg i)) = (c, .value (.byte (c.machine.readReg i)))) ∧
    (∀ a : Addr, c.transact (.read (.mem a)) = (c, .value (.byte (c.machine.mem.read a.toNat)))) ∧
    c.transact (.read .pc) = (c, .value (.word c.machine.pc)) ∧
    c.transact (.read .sp) = (c, .value (.count c.machine.sp)) ∧
    (∀ k, c.transact (.read (.stack k)) = (c, .value (.word (c.machine.stackEntry k)))) ∧
    c.transact (.read .run) = (c, .value (.runState c.machine.run)) ∧
    c.transact .status = (c, .status c.machine.run.statusWord)

/-- R91: a host stop between two cycles is invisible. Running for `a` cycles, stopping, and running for `b` more leaves
the session, and answers, what running for `a + b` does. -/
def Obligations.StopAndResumeIsInvisible : Prop :=
  ∀ (c : Session) (a b : Nat),
    (c.transactAll [.run a, .stop]).transact (.run b) = c.transact (.run (a + b)) ∧
    ((c.transact (.run a)).1.transact .stop).1 = (c.transact (.run a)).1

/-- R172: STEP on a running machine is one cycle and is RUN stopped after one. -/
def Obligations.StepTransactionIsOneCycle : Prop :=
  ∀ c : Session, c.machine.run = .running →
    ∃ t, cycle c.machine = .next t ∧ c.transact .step = (⟨t, true⟩, .outcome t.run.outcome) ∧
      c.transact (.run 1) = c.transact .step

/-- A terminal machine has no cycle: `step` and RUN leave it as it is, RUN answers the recorded outcome, and STEP is not
allowed (R80, R172). What `step` and STEP answer there is the model's choice, log entries 1 and 5. -/
def Obligations.TerminalMachineTakesNoCycle : Prop :=
  ∀ (c : Session) (o : RunOutcome) (n : Nat), c.machine.run.outcome = some o →
    step c.machine = .next c.machine ∧
    c.transact (.run n) = (c, .outcome (some o)) ∧
    c.transact .step = (c, .notAllowed)

/-! ### Assembler text (spec/30_encoding.md R70) -/

/-- The spellings of R70's table, as text, for every operand: each instruction as `spell` writes it; the synonym `RET`;
ADD with decimal numbers and DOC's `+=`, with one hexadecimal digit after `reg`, and as `ADD Vx, Vy`; CALL with a decimal
number; a raw word. How a number is written, and that an unplaced program begins at address 0, are the model's choice,
log entry 6. -/
def Obligations.AssemblerReadsTheSpellings : Prop :=
  (∀ i : Instr, Asm.assembleText (Asm.spell i) = some [(0, encode i)]) ∧
  Asm.assembleText "RET".toList = some [(0, encode .ret)] ∧
  (∀ x y : RegIdx,
    Asm.assembleText ("ADD reg".toList ++ Asm.regNumberText x ++ "+=reg".toList ++ Asm.regNumberText y) =
      some [(0, encode (.add x y))] ∧
    Asm.assembleText ("ADD reg".toList ++ [Asm.hexDigit x] ++ ", reg".toList ++ [Asm.hexDigit y]) =
      some [(0, encode (.add x y))] ∧
    Asm.assembleText ("ADD V".toList ++ [Asm.hexDigit x] ++ ", V".toList ++ [Asm.hexDigit y]) =
      some [(0, encode (.add x y))]) ∧
  (∀ d e f : Fin 10,
    Asm.assembleText ("CALL ".toList ++ [d, e, f].map fun k => Asm.hexDigit (k.castLE (by decide))) =
      some [(0, encode (.call (BitVec.ofNat 12 (100 * d.val + 10 * e.val + f.val))))]) ∧
  (∀ v : Word, Asm.assembleText (".word 0x".toList ++ Asm.hexText 4 v.toNat) = some [(0, v)])

/-- From R70. Of every text: statements are separated by a newline or a `;`; a label and a colon before a text put the
label's statement before those of the text; and a CALL may name a label. Of statements: after `.org a` and any `k` words,
which stand at `a`, `a + 2` and so on, a label is bound to `a + 2 * k`, where the next word stands. A label directly
before a `.org`, which the model binds to the address counted so far, is in no clause here: that, and that a label is a
letter or underscore and then letters, digits or underscores, are the model's choice, log entry 6. -/
def Obligations.AssemblerSeparatesStatementsAndBindsLabels : Prop :=
  (∀ (source rest : List Char) (c : Char), c = '\n' ∨ c = ';' →
    Asm.parse (source ++ c :: rest) = (Asm.parse source).bind fun p => (Asm.parse rest).map (p ++ ·)) ∧
  (∀ l : Asm.Label, Asm.isLabel l = true → (∀ c ∈ l, c.isAlphanum = true ∨ c = '_') →
    (∀ source : List Char, Asm.parse (l ++ ':' :: source) = (Asm.parse source).map (.label l :: ·)) ∧
    Asm.parse ("CALL ".toList ++ l) = some [.callLabel l]) ∧
  (∀ v : Word, Asm.parse (".org 0x".toList ++ Asm.hexText 4 v.toNat) = some [.org v.toNat]) ∧
  (∀ (a : Nat) (words : List Word) (l : Asm.Label), a + 2 * words.length < 4096 →
    Asm.assemble (.org a :: words.map (fun w => .word w.toNat) ++ [.label l, .callLabel l]) =
      some (words.mapIdx (fun k w => (a + 2 * k, w)) ++
        [(a + 2 * words.length, encode (.call (BitVec.ofNat 12 (a + 2 * words.length))))]))

/-- From R70, of every program that assembles, whatever stands before and after: a label whose next statement but for
further labels emits a word (so no `.org` stands between; that case is the model's choice, log entry 6) is bound to the
address of that word. Every CALL of the label, before it or after it, is a CALL to that address. -/
def Obligations.LabelIsBoundToTheNextWord : Prop :=
  ∀ (program before after before' after' : List Asm.Statement) (l : Asm.Label) (further : List Asm.Label)
    (st : Asm.Statement) (image : List (Nat × Word)),
    Asm.assemble program = some image →
    program = before ++ .label l :: further.map .label ++ st :: after → st.emitsWord = true →
    ∃ a w, image[Asm.wordCount before]? = some (a, w) ∧ (Asm.bindings 0 program).lookup l = some a ∧
      (program = before' ++ .callLabel l :: after' →
        a < 4096 ∧ ∃ a', image[Asm.wordCount before']? = some (a', encode (.call (BitVec.ofNat 12 a))))
end

