-- ==== Sys2Proof/Laws/Assembler.lean ====
section
/-! SUPPORT. What the functions of the assembler's text (Machine/Assembler.lean, spec/30_encoding.md R70) do on texts put
together: one lemma each for the cutting into tokens and into statements, the reading of statements, and the numbers that
`spell` writes. -/

namespace Sys2Proof.Machine.Asm

/-! ### Cutting -/

/-- A newline or `;` cuts a text into the tokens before it and those after it. -/
theorem lex_append_separator (a b acc : List Char) (c : Char) (hc : c = '\n' ∨ c = ';') :
    lex acc (a ++ c :: b) = lex acc a ++ .separator :: lex [] b := by
  induction acc, a using lex.induct with
  | case1 acc => rcases hc with rfl | rfl <;> simp [lex]
  | case2 acc rest ih => simp [lex, ih]
  | case3 acc c' rest hn hc' ih =>
    have : ∀ r', c' = '+' → ¬ (rest ++ c :: b = '=' :: r') := by
      rintro r' rfl; simp at hc'
    rw [List.cons_append, lex, lex]
    · simp [hc', ih]
    · exact hn
    · intro r h e; exact this r h e
  | case4 acc c' rest hn h1 h2 ih =>
    have : ∀ r', c' = '+' → ¬ (rest ++ c :: b = '=' :: r') := by
      rintro r' rfl; simp at h2
    rw [List.cons_append, lex, lex]
    · simp [h1, h2, ih]
    · exact hn
    · intro r h e; exact this r h e
  | case5 acc rest hn h1 h2 ih =>
    rw [List.cons_append, lex, lex]
    · simp [ih]
    · simp
    · simp
  | case6 acc rest hn h1 h2 h3 ih =>
    rw [List.cons_append, lex, lex]
    · simp [ih]
    · simp
    · simp
  | case7 acc c' rest hn h1 h2 h3 h4 ih =>
    have : ∀ r', c' = '+' → ¬ (rest ++ c :: b = '=' :: r') := by
      rintro r' rfl h
      cases rest with
      | nil => simp at h; rcases hc with rfl | rfl <;> simp at h
      | cons d ds => simp at h; obtain ⟨rfl, rfl⟩ := h; exact hn _ rfl rfl
    rw [List.cons_append, lex, lex]
    · simp [h1, h2, h3, h4, ih]
    · exact hn
    · intro r h e; exact this r h e

/-- A letter, a digit or an underscore. -/
def wordChar (c : Char) : Prop := c.isAlphanum = true ∨ c = '_'

/-- None of these characters ends a piece of text. -/
theorem wordChar_ne {c : Char} (h : wordChar c) :
    c ≠ '+' ∧ c ≠ '\n' ∧ c ≠ ';' ∧ c ≠ ' ' ∧ c ≠ '\t' ∧ c ≠ '\r' ∧ c ≠ ',' ∧ c ≠ ':' := by
  refine ⟨?_, ?_, ?_, ?_, ?_, ?_, ?_, ?_⟩ <;> rintro rfl <;> revert h <;> simp [wordChar]

/-- Letters, digits and underscores are gathered as one piece of text. -/
theorem lex_word (l acc s : List Char) (h : ∀ c ∈ l, wordChar c) : lex acc (l ++ s) = lex (l.reverse ++ acc) s := by
  induction l generalizing acc with
  | nil => rfl
  | cons c l ih =>
    obtain ⟨h1, h2, h3, h4, h5, h6, h7, h8⟩ := wordChar_ne (h c (by simp))
    rw [List.cons_append, lex]
    · simp [*]
      exact ih _ (fun c' hc => h c' (by simp [hc]))
    · intro r e; exact absurd e h1

/-- A separator cuts the tokens into the statements before it and those after it. -/
theorem splitStatements_append_separator (acc a b : List Token) :
    splitStatements acc (a ++ .separator :: b) = splitStatements acc a ++ splitStatements [] b := by
  induction acc, a using splitStatements.induct with
  | case1 => simp [splitStatements]
  | case2 acc rest ih => simp [splitStatements, ih]
  | case3 acc t rest ht ih =>
    rw [List.cons_append, splitStatements, splitStatements, ih] <;> exact ht

/-- Any other token is gathered. -/
theorem splitStatements_cons (t : Token) (ht : t ≠ .separator) (acc ts : List Token) :
    splitStatements acc (t :: ts) = splitStatements (t :: acc) ts := by
  rw [splitStatements]; simpa using ht

/-- Tokens gathered before belong to the first statement. -/
theorem splitStatements_from (acc ts : List Token) :
    ∃ hd tl, splitStatements [] ts = hd :: tl ∧ splitStatements acc ts = (acc.reverse ++ hd) :: tl := by
  suffices ∀ acc' acc, ∃ hd tl, splitStatements acc' ts = (acc'.reverse ++ hd) :: tl ∧
      splitStatements (acc' ++ acc) ts = ((acc' ++ acc).reverse ++ hd) :: tl by
    simpa using this [] acc
  induction ts with
  | nil => intro a b; exact ⟨[], [], by simp [splitStatements]⟩
  | cons t ts ih =>
    intro a b
    by_cases ht : t = .separator
    · subst ht; exact ⟨[], _, by simp [splitStatements]; rfl, by simp [splitStatements]⟩
    · obtain ⟨hd, tl, h1, h2⟩ := ih (t :: a) b
      exact ⟨t :: hd, tl, by rw [splitStatements_cons _ ht, h1]; simp,
        by rw [splitStatements_cons _ ht, ← List.cons_append, h2]; simp⟩

/-! ### Reading -/

/-- Statements are read one after another. -/
theorem parseAll_append (a b : List (List Token)) :
    parseAll (a ++ b) = (parseAll a).bind fun p => (parseAll b).map (p ++ ·) := by
  induction a with
  | nil => simp [parseAll]
  | cons t a ih =>
    simp only [List.cons_append, parseAll, ih]
    cases parseStatement t <;> simp
    cases parseAll a <;> simp
    cases parseAll b <;> simp

/-! ### Assembling: `program.foldl Statement.after loc` is the address of the next word after `program` -/

@[simp] theorem wordCount_nil : wordCount [] = 0 := rfl

@[simp] theorem wordCount_cons (st : Statement) (program : List Statement) :
    wordCount (st :: program) = wordCount program + if st.emitsWord then 1 else 0 := by
  simp [wordCount, List.countP_cons]

@[simp] theorem wordCount_append (p q : List Statement) : wordCount (p ++ q) = wordCount p + wordCount q := by
  simp [wordCount]

/-- The bindings of a program are those of its first part and, from where that ends, those of the rest. -/
theorem bindings_append (loc : Nat) (p q : List Statement) :
    bindings loc (p ++ q) = bindings loc p ++ bindings (p.foldl Statement.after loc) q := by
  induction p generalizing loc with
  | nil => rfl
  | cons st p ih => cases st <;> simp [bindings, ih, Statement.after]

/-- The words of a program are those of its first part and, from where that ends, those of the rest. -/
theorem emit_append (bound : List (Label × Nat)) (loc : Nat) (p q : List Statement) :
    emit bound loc (p ++ q) =
      (emit bound loc p).bind fun x => (emit bound (p.foldl Statement.after loc) q).map (x ++ ·) := by
  induction p generalizing loc with
  | nil => simp [emit]
  | cons st p ih =>
    cases st with
    | instr r =>
      simp only [List.cons_append, emit, ih, List.foldl_cons]
      cases r.toInstr <;> simp
      cases emit bound (Statement.after loc (.instr r)) p <;> simp
      rfl
    | callLabel l =>
      simp only [List.cons_append, emit, ih, List.foldl_cons]
      cases bound.lookup l with
      | none => simp
      | some a =>
        cases h : (RawInstr.call a).toInstr <;> simp [h]
        cases emit bound (Statement.after loc (.callLabel l)) p <;> simp
        rfl
    | word v =>
      simp only [List.cons_append, emit, ih, List.foldl_cons]
      split <;> simp
      cases emit bound (Statement.after loc (.word v)) p <;> simp
      rfl
    | org a => simp [emit, ih]
    | label l => simp [emit, ih]

/-- One word for each statement that emits one. -/
theorem emit_length {bound : List (Label × Nat)} {loc : Nat} {program : List Statement} {image : List (Nat × Word)}
    (h : emit bound loc program = some image) : image.length = wordCount program := by
  induction program generalizing loc image with
  | nil => simp [emit] at h; subst h; rfl
  | cons st p ih =>
    cases st with
    | instr r =>
      simp [emit, Option.bind_eq_some_iff] at h
      obtain ⟨_, -, y, hy, rfl⟩ := h
      simp [ih hy, Statement.emitsWord]
    | callLabel l =>
      simp [emit, Option.bind_eq_some_iff] at h
      obtain ⟨_, -, _, -, y, hy, rfl⟩ := h
      simp [ih hy, Statement.emitsWord]
    | word v =>
      simp [emit] at h
      obtain ⟨-, y, hy, rfl⟩ := h
      simp [ih hy, Statement.emitsWord]
    | org a => simp [emit] at h; simp [ih h, Statement.emitsWord]
    | label l => simp [emit] at h; simp [ih h, Statement.emitsWord]

/-! ### Numbers -/

theorem wordChar_hexDigit (d : Fin 16) : wordChar (hexDigit d) := by
  revert d; unfold wordChar; decide

theorem digit_hexDigit (d : Fin 16) : digit 16 (hexDigit d) = some d.val := by revert d; decide

theorem hexText_length (k n : Nat) : (hexText k n).length = k := by
  induction k generalizing n <;> simp [hexText, *]

theorem wordChar_of_mem_hexText (k n : Nat) : ∀ c ∈ hexText k n, wordChar c := by
  induction k generalizing n with
  | zero => simp [hexText]
  | succ k ih =>
    intro c hc; simp [hexText] at hc
    rcases hc with h | rfl
    · exact ih _ _ h
    · exact wordChar_hexDigit _

/-- Reading the `k` low hexadecimal digits of `n` after `m`. -/
theorem foldl_hexText (k n m : Nat) :
    (hexText k n).foldl (fun n c => n.bind fun n => (digit 16 c).map (n * 16 + ·)) (some m) =
      some (m * 16 ^ k + n % 16 ^ k) := by
  induction k generalizing n m with
  | zero => simp [hexText]; omega
  | succ k ih =>
    simp [hexText, ih, digit_hexDigit, Nat.pow_succ]
    have h2 : n % (16 ^ k * 16) = n / 16 % 16 ^ k * 16 + n % 16 := by
      rw [Nat.mul_comm (16 ^ k) 16, Nat.mod_mul]; omega
    rw [h2]; ring

/-- A number is read back from its hexadecimal digits. -/
theorem number_hexText (k n : Nat) (hk : k ≠ 0) (h : n < 16 ^ k) : number ('0' :: 'x' :: hexText k n) = some n := by
  have : hexText k n ≠ [] := by intro e; apply hk; rw [← hexText_length k n, e]; rfl
  simp [number, digits, this, foldl_hexText, Nat.mod_eq_of_lt h]

end Sys2Proof.Machine.Asm
end

