-- ==== Sys2Proof/Laws/Decode.lean ====
section
/-! SUPPORT. Words, bytes and fields: how they are put together and taken apart. -/

namespace Sys2Proof

/-! ### Words and bytes -/

theorem wordOfBytes_bytesOfWord (w : Word) : wordOfBytes (bytesOfWord w).1 (bytesOfWord w).2 = w := by
  apply BitVec.eq_of_getLsbD_eq
  intro i hi
  simp only [wordOfBytes, bytesOfWord, BitVec.getLsbD_or, BitVec.getLsbD_shiftLeft, BitVec.getLsbD_setWidth,
    BitVec.getLsbD_extractLsb']
  by_cases h : i < 8
  · simp [h, hi]
  · have h1 : i - 8 < 8 := by omega
    have h2 : i - 8 < 16 := by omega
    have h3 : 8 + (i - 8) = i := by omega
    simp [h, hi, h1, h2, h3]

theorem bytesOfWord_wordOfBytes (first second : Byte) :
    bytesOfWord (wordOfBytes first second) = (first, second) := by
  refine Prod.ext ?_ ?_ <;> apply BitVec.eq_of_getLsbD_eq <;> intro i hi <;>
    simp only [wordOfBytes, bytesOfWord, BitVec.getLsbD_or, BitVec.getLsbD_shiftLeft, BitVec.getLsbD_setWidth,
      BitVec.getLsbD_extractLsb']
  · have h1 : 8 + i < 16 := by omega
    have h2 : i < 16 := by omega
    simp [h1, h2, hi]
  · have h1 : i < 16 := by omega
    simp [h1, hi]

/-- The word as a number: the first byte counts 256 times. -/
theorem wordOfBytes_toNat (first second : Byte) :
    (wordOfBytes first second).toNat = 256 * first.toNat + second.toNat := by
  have e : wordOfBytes first second = first ++ second := by
    apply BitVec.eq_of_getLsbD_eq
    intro i hi
    simp only [wordOfBytes, BitVec.getLsbD_or, BitVec.getLsbD_shiftLeft, BitVec.getLsbD_setWidth,
      BitVec.getLsbD_append]
    by_cases h : i < 8
    · simp [h, hi]
    · have h2 : i - 8 < 16 := by omega
      simp [h, hi, h2, BitVec.getLsbD_of_ge second i (by omega)]
  rw [e, BitVec.toNat_append, Nat.shiftLeft_eq, Nat.mul_comm, ← Nat.two_pow_add_eq_or_of_lt second.isLt]

/-! ### Words and fields -/

/-- A word is its four nibbles (spec/30_encoding.md R61). -/
theorem word_eq_nibbles (w : Word) :
    w = (decodeFields w).op ++ (decodeFields w).x ++ (decodeFields w).y ++ (decodeFields w).n := by
  apply BitVec.eq_of_getLsbD_eq
  intro i hi
  simp only [decodeFields, BitVec.getLsbD_append, BitVec.getLsbD_extractLsb']
  by_cases h0 : i < 4
  · simp [h0]
  · by_cases h1 : i - 4 < 4
    · have : 4 + (i - 4) = i := by omega
      simp [h0, h1, this]
    · by_cases h2 : i - 4 - 4 < 4
      · have : 8 + (i - 4 - 4) = i := by omega
        simp [h0, h1, h2, this]
      · have h3 : i - 4 - 4 - 4 < 4 := by omega
        have : 12 + (i - 4 - 4 - 4) = i := by omega
        simp [h0, h1, h2, h3, this]

/-- A word is its top nibble and its address field (R61). -/
theorem word_eq_op_addr (w : Word) : w = (decodeFields w).op ++ (decodeFields w).addr := by
  apply BitVec.eq_of_getLsbD_eq
  intro i hi
  simp only [decodeFields, BitVec.getLsbD_append, BitVec.getLsbD_extractLsb']
  by_cases h : i < 12
  · simp [h]
  · have h1 : i - 12 < 4 := by omega
    have : 12 + (i - 12) = i := by omega
    simp [h, h1, this]

/-- The fields of a word made of four nibbles (R61, R64). -/
theorem decodeFields_nibbles (a b c d : Nibble) :
    decodeFields (a ++ b ++ c ++ d) = ⟨a, b, c, d, b ++ c ++ d, c ++ d⟩ := by
  simp only [decodeFields, Fields.mk.injEq]
  refine ⟨?_, ?_, ?_, ?_, ?_, ?_⟩ <;> apply BitVec.eq_of_getLsbD_eq <;> intro i hi <;>
    simp only [BitVec.getLsbD_append, BitVec.getLsbD_extractLsb']
  · have h : ¬ 12 + i < 4 ∧ ¬ 12 + i - 4 < 4 ∧ ¬ 12 + i - 4 - 4 < 4 ∧ 12 + i - 4 - 4 - 4 = i := by omega
    simp [hi, h]
  · have h : ¬ 8 + i < 4 ∧ ¬ 8 + i - 4 < 4 ∧ 8 + i - 4 - 4 < 4 ∧ 8 + i - 4 - 4 = i := by omega
    simp [hi, h]
  · have h : ¬ 4 + i < 4 ∧ 4 + i - 4 < 4 ∧ 4 + i - 4 = i := by omega
    simp [hi, h]
  · simp [hi]
  · by_cases h0 : i < 4
    · simp [hi, h0]
    · by_cases h1 : i - 4 < 4
      · simp [hi, h0, h1]
      · have h2 : i - 4 - 4 < 4 := by omega
        simp [hi, h0, h1, h2]
  · by_cases h0 : i < 4
    · simp [hi, h0]
    · have h1 : i - 4 < 4 := by omega
      simp [hi, h0, h1]

/-- The fields an address-form word is read by (R61, R64). -/
theorem decodeFields_op_addr (a : Nibble) (addr : Addr) :
    (decodeFields (a ++ addr)).op = a ∧ (decodeFields (a ++ addr)).addr = addr := by
  refine ⟨?_, ?_⟩ <;> apply BitVec.eq_of_getLsbD_eq <;> intro i hi <;>
    simp only [decodeFields, BitVec.getLsbD_append, BitVec.getLsbD_extractLsb']
  · have h : ¬ 12 + i < 12 ∧ 12 + i - 12 = i := by omega
    simp [hi, h]
  · simp [hi]

@[simp] theorem regOfField_fieldOfReg (r : RegIdx) : regOfField (fieldOfReg r) = r := by
  apply Fin.ext
  simp only [regOfField, fieldOfReg, BitVec.toNat_ofNat]
  exact Nat.mod_eq_of_lt r.isLt

@[simp] theorem fieldOfReg_regOfField (f : Nibble) : fieldOfReg (regOfField f) = f := by
  simp [regOfField, fieldOfReg]

/-! ### Raw instructions -/

/-- A raw instruction stands for one of `Instr` exactly when it is well formed. -/
theorem RawInstr.toInstr_isSome (r : RawInstr) : r.toInstr.isSome = r.wellFormed := by
  cases r with
  | halt => rfl
  | ret => rfl
  | call addr =>
    by_cases h : addr < 4096 <;> simp [RawInstr.toInstr, RawInstr.wellFormed, addrFits, h]
  | add x y =>
    by_cases hx : x < 16 <;> by_cases hy : y < 16 <;>
      simp [RawInstr.toInstr, RawInstr.wellFormed, regFits, Config.numRegs, hx, hy]

/-- Writing an instruction's operands as numbers loses nothing. -/
theorem Instr.toRaw_toInstr (i : Instr) : i.toRaw.toInstr = some i := by
  cases i with
  | halt => rfl
  | ret => rfl
  | call addr => simp [Instr.toRaw, RawInstr.toInstr, addr.isLt]
  | add x y => simp [Instr.toRaw, RawInstr.toInstr]

/-- Every instruction is well formed: its operands' types carry their ranges (spec/10_state.md R23). -/
theorem Instr.wellFormed_all (i : Instr) : i.wellFormed = true := by
  rw [Instr.wellFormed, ← RawInstr.toInstr_isSome, Instr.toRaw_toInstr]
  rfl

end Sys2Proof
end

