-- ==== Sys2Proof/Laws/Memory.lean ====
section
/-! SUPPORT. The memory laws: a read after a write, and that every operation keeps the canonical form. -/

namespace Sys2Proof.Machine

/-- The canonical form of a nonempty list, taken apart. -/
theorem Memory.wfFrom_cons {low k : Nat} {v : Byte} {rest : Memory} :
    Memory.wfFrom low ((k, v) :: rest) = true ↔
      low ≤ k ∧ k < Config.memSize ∧ v ≠ Memory.unlisted ∧ Memory.wfFrom (k + 1) rest = true := by
  simp [Memory.wfFrom, and_assoc]

/-- Below its first possible address a canonical list lists nothing. -/
theorem Memory.read_below {low a : Nat} {m : Memory} (h : Memory.wfFrom low m = true) (ha : a < low) :
    Memory.read m a = Memory.unlisted := by
  induction m generalizing low with
  | nil => rfl
  | cons c rest ih =>
    obtain ⟨k, v⟩ := c
    obtain ⟨hk, -, -, hr⟩ := Memory.wfFrom_cons.1 h
    have : a ≠ k := by omega
    simpa [Memory.read, this] using ih hr (by omega)

/-- Outside the address space a canonical list lists nothing. -/
theorem Memory.read_beyond {low a : Nat} {m : Memory} (h : Memory.wfFrom low m = true) (ha : Config.memSize ≤ a) :
    Memory.read m a = Memory.unlisted := by
  induction m generalizing low with
  | nil => rfl
  | cons c rest ih =>
    obtain ⟨k, v⟩ := c
    obtain ⟨-, hk, -, hr⟩ := Memory.wfFrom_cons.1 h
    have : a ≠ k := by omega
    simpa [Memory.read, this] using ih hr

/-- A canonical list is canonical from any lower address. -/
theorem Memory.wfFrom_mono {low low' : Nat} {m : Memory} (h : Memory.wfFrom low m = true) (hl : low' ≤ low) :
    Memory.wfFrom low' m = true := by
  cases m with
  | nil => rfl
  | cons c rest =>
    obtain ⟨k, v⟩ := c
    obtain ⟨h1, h2, h3, h4⟩ := Memory.wfFrom_cons.1 h
    exact Memory.wfFrom_cons.2 ⟨by omega, h2, h3, h4⟩

/-- The write seen through a read, for a list canonical from any address. -/
theorem Memory.read_write_from {low : Nat} {m : Memory} (h : Memory.wfFrom low m = true) (a c : Nat) (b : Byte) :
    Memory.read (Memory.write m a b) c = if c = a then b else Memory.read m c := by
  induction m generalizing low with
  | nil =>
    by_cases hb : b = Memory.unlisted <;> by_cases hc : c = a <;> simp [Memory.write, Memory.read, hb, hc]
  | cons e rest ih =>
    obtain ⟨k, v⟩ := e
    obtain ⟨-, -, -, hr⟩ := Memory.wfFrom_cons.1 h
    rcases Nat.lt_trichotomy a k with hak | rfl | hak
    · have below : Memory.read ((k, v) :: rest) a = Memory.unlisted := by
        have : a ≠ k := by omega
        simpa [Memory.read, this] using Memory.read_below hr (show a < k + 1 by omega)
      by_cases hb : b = Memory.unlisted
      · by_cases hc : c = a
        · simp [Memory.write, hak, hb, hc, below]
        · simp [Memory.write, hak, hb, hc]
      · by_cases hc : c = a <;> simp [Memory.write, hak, hb, hc, Memory.read]
    · by_cases hb : b = Memory.unlisted
      · by_cases hc : c = a
        · simpa [Memory.write, hb, hc] using Memory.read_below hr (Nat.lt_succ_self a)
        · simp [Memory.write, hb, hc, Memory.read]
      · by_cases hc : c = a <;> simp [Memory.write, hb, hc, Memory.read]
    · have h1 : ¬ a < k := by omega
      have h2 : a ≠ k := by omega
      by_cases hc : c = k
      · have : c ≠ a := by omega
        simp [Memory.write, h1, h2, Memory.read, hc, h2.symm]
      · simp [Memory.write, h1, h2, Memory.read, hc, ih hr]

/-- A write keeps the canonical form. -/
theorem Memory.wfFrom_write {low : Nat} {m : Memory} (h : Memory.wfFrom low m = true) {a : Nat} (hl : low ≤ a)
    (ha : a < Config.memSize) (b : Byte) : Memory.wfFrom low (Memory.write m a b) = true := by
  induction m generalizing low with
  | nil =>
    by_cases hb : b = Memory.unlisted
    · simp [Memory.write, hb, Memory.wfFrom]
    · simp only [Memory.write, if_neg hb]
      exact Memory.wfFrom_cons.2 ⟨hl, ha, hb, rfl⟩
  | cons e rest ih =>
    obtain ⟨k, v⟩ := e
    obtain ⟨hk, hs, hv, hr⟩ := Memory.wfFrom_cons.1 h
    simp only [Memory.write]
    split
    · split
      · exact h
      · next hak hb => exact Memory.wfFrom_cons.2 ⟨hl, ha, hb, Memory.wfFrom_cons.2 ⟨hak, hs, hv, hr⟩⟩
    · split
      · split
        · exact Memory.wfFrom_mono hr (by omega)
        · next hb => exact Memory.wfFrom_cons.2 ⟨hk, hs, hb, hr⟩
      · exact Memory.wfFrom_cons.2 ⟨hk, hs, hv, ih hr (by omega)⟩

/-- Writing a byte sequence inside memory keeps the canonical form. -/
theorem Memory.wf_writeBytes {m : Memory} (h : m.wf = true) (a : Nat) (bytes : List Byte)
    (fits : a + bytes.length ≤ Config.memSize) : (Memory.writeBytes m a bytes).wf = true := by
  induction bytes generalizing m a with
  | nil => exact h
  | cons b rest ih =>
    simp only [List.length_cons] at fits
    exact ih (Memory.wfFrom_write h (Nat.zero_le a) (by omega) b) (a + 1) (by omega)

/-- A byte sequence seen through a read: in its range its own byte, elsewhere what was there. -/
theorem Memory.read_writeBytes {m : Memory} (h : m.wf = true) (a : Nat) (bytes : List Byte)
    (fits : a + bytes.length ≤ Config.memSize) (c : Nat) :
    Memory.read (Memory.writeBytes m a bytes) c =
      if a ≤ c ∧ c < a + bytes.length then bytes.getD (c - a) 0 else Memory.read m c := by
  induction bytes generalizing m a with
  | nil =>
    have : ¬ (a ≤ c ∧ c < a) := by omega
    simp [Memory.writeBytes, this]
  | cons b rest ih =>
    simp only [List.length_cons] at fits
    have hw := Memory.wfFrom_write h (Nat.zero_le a) (show a < Config.memSize by omega) b
    rw [Memory.writeBytes, ih hw (a + 1) (by omega), Memory.read_write_from h]
    simp only [List.length_cons]
    rcases Nat.lt_trichotomy c a with hc | rfl | hc
    · rw [if_neg (by omega), if_neg (by omega), if_neg (by omega)]
    · rw [if_neg (by omega), if_pos rfl, if_pos (by omega)]
      simp
    · by_cases hr : c < a + 1 + rest.length
      · rw [if_pos (by omega), if_pos (by omega)]
        have : c - a = (c - (a + 1)) + 1 := by omega
        rw [this, List.getD_cons_succ]
      · rw [if_neg (by omega), if_neg (by omega), if_neg (by omega)]

/-- LOAD keeps the canonical form. -/
theorem loadProgram_wf {m m' : Memory} (h : m.wf = true) {offset : Nat} {bytes : List Byte}
    (hl : loadProgram m offset bytes = some m') : m'.wf = true := by
  unfold loadProgram at hl
  split at hl
  · next fits =>
    cases hl
    exact Memory.wf_writeBytes h offset bytes (by simpa [imageFits] using fits)
  · cases hl

/-- Reset lists nothing, which is canonical. -/
theorem State.reset_mem_wf : State.reset.mem.wf = true := rfl

end Sys2Proof.Machine
end

