-- ==== Sys2Proof/Laws/State.lean ====
section
/-! SUPPORT. What each update of the state does to each field, and what each accessor reads after each update. -/

namespace Sys2Proof.Machine

variable (s : State)

/-! ### One lemma per field per update -/

@[simp] theorem State.advance_regs : s.advance.regs = s.regs := rfl
@[simp] theorem State.advance_pc : s.advance.pc = s.pc + 2 := rfl
@[simp] theorem State.advance_stack : s.advance.stack = s.stack := rfl
@[simp] theorem State.advance_sp : s.advance.sp = s.sp := rfl
@[simp] theorem State.advance_run : s.advance.run = s.run := rfl
@[simp] theorem State.advance_mem : s.advance.mem = s.mem := rfl

@[simp] theorem State.writeReg_regs (i : RegIdx) (v : Byte) : (s.writeReg i v).regs = s.regs.set i v := rfl
@[simp] theorem State.writeReg_pc (i : RegIdx) (v : Byte) : (s.writeReg i v).pc = s.pc := rfl
@[simp] theorem State.writeReg_stack (i : RegIdx) (v : Byte) : (s.writeReg i v).stack = s.stack := rfl
@[simp] theorem State.writeReg_sp (i : RegIdx) (v : Byte) : (s.writeReg i v).sp = s.sp := rfl
@[simp] theorem State.writeReg_run (i : RegIdx) (v : Byte) : (s.writeReg i v).run = s.run := rfl
@[simp] theorem State.writeReg_mem (i : RegIdx) (v : Byte) : (s.writeReg i v).mem = s.mem := rfl

@[simp] theorem State.writeFlag_regs (v : Byte) : (s.writeFlag v).regs = s.regs.set Config.flagReg v := rfl
@[simp] theorem State.writeFlag_pc (v : Byte) : (s.writeFlag v).pc = s.pc := rfl
@[simp] theorem State.writeFlag_stack (v : Byte) : (s.writeFlag v).stack = s.stack := rfl
@[simp] theorem State.writeFlag_sp (v : Byte) : (s.writeFlag v).sp = s.sp := rfl
@[simp] theorem State.writeFlag_run (v : Byte) : (s.writeFlag v).run = s.run := rfl
@[simp] theorem State.writeFlag_mem (v : Byte) : (s.writeFlag v).mem = s.mem := rfl

@[simp] theorem State.setPc_regs (a : Word) : (s.setPc a).regs = s.regs := rfl
@[simp] theorem State.setPc_pc (a : Word) : (s.setPc a).pc = a := rfl
@[simp] theorem State.setPc_stack (a : Word) : (s.setPc a).stack = s.stack := rfl
@[simp] theorem State.setPc_sp (a : Word) : (s.setPc a).sp = s.sp := rfl
@[simp] theorem State.setPc_run (a : Word) : (s.setPc a).run = s.run := rfl
@[simp] theorem State.setPc_mem (a : Word) : (s.setPc a).mem = s.mem := rfl

@[simp] theorem State.push_regs (k : Fin 16) (v : Word) : (s.push k v).regs = s.regs := rfl
@[simp] theorem State.push_pc (k : Fin 16) (v : Word) : (s.push k v).pc = s.pc := rfl
@[simp] theorem State.push_stack (k : Fin 16) (v : Word) : (s.push k v).stack = s.stack.set k v := rfl
@[simp] theorem State.push_sp (k : Fin 16) (v : Word) : (s.push k v).sp = k.succ := rfl
@[simp] theorem State.push_run (k : Fin 16) (v : Word) : (s.push k v).run = s.run := rfl
@[simp] theorem State.push_mem (k : Fin 16) (v : Word) : (s.push k v).mem = s.mem := rfl

@[simp] theorem State.popPc_regs (k : Fin 16) : (s.popPc k).regs = s.regs := rfl
@[simp] theorem State.popPc_pc (k : Fin 16) : (s.popPc k).pc = s.stackEntry k := rfl
@[simp] theorem State.popPc_stack (k : Fin 16) : (s.popPc k).stack = s.stack := rfl
@[simp] theorem State.popPc_sp (k : Fin 16) : (s.popPc k).sp = k.castSucc := rfl
@[simp] theorem State.popPc_run (k : Fin 16) : (s.popPc k).run = s.run := rfl
@[simp] theorem State.popPc_mem (k : Fin 16) : (s.popPc k).mem = s.mem := rfl

@[simp] theorem State.halt_regs : s.halt.regs = s.regs := rfl
@[simp] theorem State.halt_pc : s.halt.pc = s.pc := rfl
@[simp] theorem State.halt_stack : s.halt.stack = s.stack := rfl
@[simp] theorem State.halt_sp : s.halt.sp = s.sp := rfl
@[simp] theorem State.halt_run : s.halt.run = .halted := rfl
@[simp] theorem State.halt_mem : s.halt.mem = s.mem := rfl

/-! ### Registers -/

@[simp] theorem State.readReg_writeReg (i j : RegIdx) (v : Byte) :
    (s.writeReg i v).readReg j = if j = i then v else s.readReg j := by
  simp only [State.readReg, State.writeReg, Fin.getElem_fin, Vector.getElem_set]
  by_cases h : j = i
  · simp [h]
  · have : ¬ i.val = j.val := fun e => h (Fin.ext e.symm)
    simp [h, this]

@[simp] theorem State.readReg_writeFlag (j : RegIdx) (v : Byte) :
    (s.writeFlag v).readReg j = if j = 0xF then v else s.readReg j := s.readReg_writeReg 0xF j v

@[simp] theorem State.readReg_advance (i : RegIdx) : s.advance.readReg i = s.readReg i := rfl
@[simp] theorem State.readReg_setPc (i : RegIdx) (a : Word) : (s.setPc a).readReg i = s.readReg i := rfl
@[simp] theorem State.readReg_push (i : RegIdx) (k : Fin 16) (v : Word) :
    (s.push k v).readReg i = s.readReg i := rfl
@[simp] theorem State.readReg_popPc (i : RegIdx) (k : Fin 16) : (s.popPc k).readReg i = s.readReg i := rfl
@[simp] theorem State.readReg_halt (i : RegIdx) : s.halt.readReg i = s.readReg i := rfl

/-- Two states with the same registers, read one by one, have the same register file. -/
theorem State.regs_ext {s t : State} (h : ∀ i, s.readReg i = t.readReg i) : s.regs = t.regs :=
  Vector.ext fun i hi => h ⟨i, hi⟩

/-! ### Call stack -/

@[simp] theorem State.stackEntry_push (j k : Fin 16) (v : Word) :
    (s.push k v).stackEntry j = if j = k then v else s.stackEntry j := by
  simp only [State.stackEntry, State.push, Fin.getElem_fin, Vector.getElem_set]
  by_cases h : j = k
  · simp [h]
  · have : ¬ k.val = j.val := fun e => h (Fin.ext e.symm)
    simp [h, this]

@[simp] theorem State.stackEntry_advance (j : Fin 16) : s.advance.stackEntry j = s.stackEntry j := rfl
@[simp] theorem State.stackEntry_setPc (j : Fin 16) (a : Word) : (s.setPc a).stackEntry j = s.stackEntry j := rfl
@[simp] theorem State.stackEntry_popPc (j k : Fin 16) : (s.popPc k).stackEntry j = s.stackEntry j := rfl
@[simp] theorem State.stackEntry_halt (j : Fin 16) : s.halt.stackEntry j = s.stackEntry j := rfl
@[simp] theorem State.stackEntry_writeReg (j : Fin 16) (i : RegIdx) (v : Byte) :
    (s.writeReg i v).stackEntry j = s.stackEntry j := rfl
@[simp] theorem State.stackEntry_writeFlag (j : Fin 16) (v : Byte) :
    (s.writeFlag v).stackEntry j = s.stackEntry j := rfl

/-- Two states with the same entries have the same call stack. -/
theorem State.stack_ext {s t : State} (h : ∀ k, s.stackEntry k = t.stackEntry k) : s.stack = t.stack :=
  Vector.ext fun i hi => h ⟨i, hi⟩

end Sys2Proof.Machine
end

