-- ==== Sys2Proof/Laws/Ops.lean ====
section
/-! SUPPORT. One lemma for each shared operation, saying once everything it can do. -/

namespace Sys2Proof.Machine

variable (s : State)

/-! ### Fetch -/

theorem State.fetchInBounds_iff : s.fetchInBounds = true ↔ s.pc.toNat ≤ 0xFFE := by
  simp [State.fetchInBounds]

theorem State.fetch_of_le (h : s.pc.toNat ≤ 0xFFE) :
    s.fetch = some (wordOfBytes (s.mem.read s.pc.toNat) (s.mem.read (s.pc.toNat + 1))) := by
  rw [State.fetch, if_pos (s.fetchInBounds_iff.2 h)]

theorem State.fetch_none_iff : s.fetch = none ↔ 0xFFE < s.pc.toNat := by
  by_cases h : s.pc.toNat ≤ 0xFFE
  · rw [s.fetch_of_le h]
    exact iff_of_false nofun (by omega)
  · have hb : ¬ s.fetchInBounds = true := fun e => h (s.fetchInBounds_iff.1 e)
    rw [State.fetch, if_neg hb]
    exact iff_of_true rfl (by omega)

theorem State.fetch_some_iff {w : Word} : s.fetch = some w ↔
    s.pc.toNat ≤ 0xFFE ∧ w = wordOfBytes (s.mem.read s.pc.toNat) (s.mem.read (s.pc.toNat + 1)) := by
  by_cases h : s.pc.toNat ≤ 0xFFE
  · rw [s.fetch_of_le h]
    exact ⟨fun e => ⟨h, (Option.some.inj e).symm⟩, fun e => by rw [e.2]⟩
  · rw [s.fetch_none_iff.2 (by omega)]
    exact ⟨nofun, fun e => absurd e.1 h⟩

/-- The advance never wraps after a fetch that succeeded (spec/10_state.md R25). -/
theorem State.advance_toNat (h : s.pc.toNat ≤ 0xFFE) : s.advance.pc.toNat = s.pc.toNat + 2 := by
  rw [State.advance_pc, BitVec.toNat_add]
  exact Nat.mod_eq_of_lt (by simp; omega)

/-! ### Slots of the call stack -/

theorem State.freeSlot_none_iff : s.freeSlot = none ↔ s.sp.val = 16 := by
  unfold State.freeSlot
  split
  · exact iff_of_false nofun (by omega)
  · exact iff_of_true rfl (by have := s.sp.isLt; omega)

theorem State.freeSlot_some_iff {k : Fin 16} : s.freeSlot = some k ↔ s.sp.val = k.val := by
  unfold State.freeSlot
  split
  · exact ⟨fun e => congrArg Fin.val (Option.some.inj e), fun e => congrArg some (Fin.ext e)⟩
  · exact iff_of_false nofun (by have := k.isLt; omega)

theorem State.topSlot_none_iff : s.topSlot = none ↔ s.sp.val = 0 := by
  unfold State.topSlot
  split
  · exact iff_of_true rfl ‹_›
  · exact iff_of_false nofun ‹_›

theorem State.topSlot_some_iff {k : Fin 16} : s.topSlot = some k ↔ s.sp.val = k.val + 1 := by
  unfold State.topSlot
  split
  · exact iff_of_false nofun (by omega)
  · next h =>
    refine ⟨fun e => ?_, fun e => congrArg some (Fin.ext ?_)⟩
    · have := congrArg Fin.val (Option.some.inj e)
      simp only at this
      omega
    · simp only
      omega

/-! ### Sum and carry -/

theorem sumByte_toNat (a b : Byte) : (sumByte a b).toNat = (a.toNat + b.toNat) % 256 := by
  rw [sumByte, intSum, BitVec.toNat_ofNat]
  exact Nat.mod_mod _ _

theorem carryByte_toNat (a b : Byte) : (carryByte a b).toNat = if 256 ≤ a.toNat + b.toNat then 1 else 0 := by
  unfold carryByte intSum
  by_cases h : 256 ≤ a.toNat + b.toNat
  · rw [if_pos h, if_pos (by omega)]
    rfl
  · rw [if_neg h, if_neg (by omega)]
    rfl

/-! ### Address operand -/

@[simp] theorem addrOperand_toNat (addr : Addr) : (addrOperand addr).toNat = addr.toNat := by
  rw [addrOperand, BitVec.toNat_setWidth]
  exact Nat.mod_eq_of_lt (by have := addr.isLt; omega)

/-! ### Run state -/

theorem RunState.terminal_false_iff {r : RunState} : r.terminal = false ↔ r = .running := by
  cases r <;> simp [RunState.terminal]

end Sys2Proof.Machine
end

