-- ==== Sys2Proof/Laws/PerInstr.lean ====
section
/-! SUPPORT. The per-instruction family `EncodesItsRow`: an instruction's word selects the row of the opcode table that
bears its mnemonic (spec/30_encoding.md R65). -/

namespace Sys2Proof.Laws.EncodesItsRow

/-- The row of the instruction's mnemonic stands in the table and its pattern is the instruction's word under its mask. -/
def Statement (i : Instr) : Prop :=
  ∃ r ∈ opcodeRows, r.mnemonic = i.mnemonic ∧ r.selects (encode i) = true

theorem halt : Statement .halt := ⟨⟨"HALT", 0x0000, 0xFFFF⟩, by simp [opcodeRows], rfl, rfl⟩

theorem ret : Statement .ret := ⟨⟨"RETURN", 0x00EE, 0xFFFF⟩, by simp [opcodeRows], rfl, rfl⟩

theorem call (addr : Addr) : Statement (.call addr) := by
  refine ⟨⟨"CALL", 0x2000, 0xF000⟩, by simp [opcodeRows], rfl, ?_⟩
  have hmask : (0xF000 : Word) = 0xF#4 ++ 0x000#12 := by decide
  have hpat : (0x2000 : Word) = 0x2#4 ++ 0x000#12 := by decide
  simp only [OpcodeRow.selects, encode, beq_iff_eq]
  rw [hmask, hpat, BitVec.and_append]
  simp

theorem add (x y : RegIdx) : Statement (.add x y) := by
  refine ⟨⟨"ADD", 0x8004, 0xF00F⟩, by simp [opcodeRows], rfl, ?_⟩
  revert x y
  decide

end Sys2Proof.Laws.EncodesItsRow
end

