-- ==== Sys2Proof/Laws/Step.lean ====
section
/-! SUPPORT. What one step can do, said once (`step_next_iff`), and the run loop's equations. -/

namespace Sys2Proof.Machine

/-- Everything a step from `s` can end in: one constructor per way through the cycle (spec/40_cycle.md R81, R87). -/
inductive StepCase (s : State) : State → Prop
  | terminal (h : s.run.terminal = true) : StepCase s s
  | outOfBounds (hr : s.run = .running) (hf : s.fetch = none) :
      StepCase s { s with run := .faulted .outOfBoundsFetch }
  | unimplemented (hr : s.run = .running) (w : Word) (hf : s.fetch = some w) (hd : decodeWord w = none) :
      StepCase s { s.advance with run := .faulted .unimplementedOpcode }
  | halt (hr : s.run = .running) (w : Word) (hf : s.fetch = some w) (hd : decodeWord w = some .halt) :
      StepCase s s.advance.halt
  | underflow (hr : s.run = .running) (w : Word) (hf : s.fetch = some w) (hd : decodeWord w = some .ret)
      (hs : s.sp.val = 0) : StepCase s { s.advance with run := .faulted .stackUnderflow }
  | ret (hr : s.run = .running) (w : Word) (hf : s.fetch = some w) (hd : decodeWord w = some .ret) (k : Fin 16)
      (hs : s.sp.val = k.val + 1) : StepCase s (s.advance.popPc k)
  | overflow (hr : s.run = .running) (w : Word) (hf : s.fetch = some w) (addr : Addr)
      (hd : decodeWord w = some (.call addr)) (hs : s.sp.val = 16) :
      StepCase s { s.advance with run := .faulted .stackOverflow }
  | call (hr : s.run = .running) (w : Word) (hf : s.fetch = some w) (addr : Addr)
      (hd : decodeWord w = some (.call addr)) (k : Fin 16) (hs : s.sp.val = k.val) :
      StepCase s ((s.advance.push k s.advance.pc).setPc (addrOperand addr))
  | add (hr : s.run = .running) (w : Word) (hf : s.fetch = some w) (x y : RegIdx)
      (hd : decodeWord w = some (.add x y)) :
      StepCase s ((s.advance.writeReg x (sumByte (s.readReg x) (s.readReg y))).writeFlag
        (carryByte (s.readReg x) (s.readReg y)))

variable {s t : State}

theorem step_of_terminal (h : s.run.terminal = true) : step s = .next s := by
  rw [step, stepOnce, if_pos h, State.idle]

theorem step_of_running (hr : s.run = .running) : step s = cycle s := by
  rw [step, stepOnce, hr]
  rfl

theorem step_of_fetch_none (hr : s.run = .running) (hf : s.fetch = none) : step s = s.raise .outOfBoundsFetch := by
  rw [step_of_running hr, cycle, hf]

theorem step_of_fetch (hr : s.run = .running) {w : Word} (hf : s.fetch = some w) :
    step s = dispatchWord w s.advance := by
  rw [step_of_running hr, cycle, hf]

theorem dispatchWord_of_decode {w : Word} {i : Instr} (hd : decodeWord w = some i) (s : State) :
    dispatchWord w s = exec i s := by
  rw [dispatchWord, hd]

theorem dispatchWord_of_unmatched {w : Word} (hd : decodeWord w = none) (s : State) :
    dispatchWord w s = s.raise .unimplementedOpcode := by
  rw [dispatchWord, hd]

/-- Every state is in one of the cases, and the step answers it. -/
theorem step_exists_case (s : State) : ∃ t, step s = .next t ∧ StepCase s t := by
  cases hr : s.run.terminal with
  | true => exact ⟨s, step_of_terminal hr, .terminal hr⟩
  | false =>
    have hr := RunState.terminal_false_iff.1 hr
    cases hf : s.fetch with
    | none => exact ⟨_, step_of_fetch_none hr hf, .outOfBounds hr hf⟩
    | some w =>
      rw [step_of_fetch hr hf]
      cases hd : decodeWord w with
      | none => exact ⟨_, dispatchWord_of_unmatched hd _, .unimplemented hr w hf hd⟩
      | some i =>
        rw [dispatchWord_of_decode hd]
        cases i with
        | halt => exact ⟨_, rfl, .halt hr w hf hd⟩
        | ret =>
          cases hk : s.advance.topSlot with
          | none =>
            refine ⟨_, ?_, .underflow hr w hf hd (s.advance.topSlot_none_iff.1 hk)⟩
            simp only [exec, execReturn, hk, State.raise]
          | some k =>
            refine ⟨_, ?_, .ret hr w hf hd k (s.advance.topSlot_some_iff.1 hk)⟩
            simp only [exec, execReturn, hk]
        | call addr =>
          cases hk : s.advance.freeSlot with
          | none =>
            refine ⟨_, ?_, .overflow hr w hf addr hd (s.advance.freeSlot_none_iff.1 hk)⟩
            simp only [exec, execCall, hk, State.raise]
          | some k =>
            refine ⟨_, ?_, .call hr w hf addr hd k (s.advance.freeSlot_some_iff.1 hk)⟩
            simp only [exec, execCall, hk]
        | add x y => exact ⟨_, rfl, .add hr w hf x y hd⟩

/-- What a step can do: it answers `t` exactly when one of the cases gives `t`. -/
theorem step_next_iff : step s = .next t ↔ StepCase s t := by
  obtain ⟨u, hu, hc⟩ := step_exists_case s
  constructor
  · intro h
    rw [hu] at h
    cases h
    exact hc
  · intro h
    cases h with
    | terminal h => exact step_of_terminal h
    | outOfBounds hr hf => exact step_of_fetch_none hr hf
    | unimplemented hr w hf hd => rw [step_of_fetch hr hf, dispatchWord_of_unmatched hd]; rfl
    | halt hr w hf hd => rw [step_of_fetch hr hf, dispatchWord_of_decode hd]; rfl
    | underflow hr w hf hd hs =>
      rw [step_of_fetch hr hf, dispatchWord_of_decode hd]
      simp only [exec, execReturn, s.advance.topSlot_none_iff.2 hs, State.raise]
    | ret hr w hf hd k hs =>
      rw [step_of_fetch hr hf, dispatchWord_of_decode hd]
      simp only [exec, execReturn, (s.advance.topSlot_some_iff (k := k)).2 hs]
    | overflow hr w hf addr hd hs =>
      rw [step_of_fetch hr hf, dispatchWord_of_decode hd]
      simp only [exec, execCall, s.advance.freeSlot_none_iff.2 hs, State.raise]
    | call hr w hf addr hd k hs =>
      rw [step_of_fetch hr hf, dispatchWord_of_decode hd]
      simp only [exec, execCall, (s.advance.freeSlot_some_iff (k := k)).2 hs]
    | add hr w hf x y hd => rw [step_of_fetch hr hf, dispatchWord_of_decode hd]; rfl

/-! ### The run loop -/

@[simp] theorem runFor_zero (s : State) : runFor 0 s = .next s := rfl

theorem runFor_succ (n : Nat) (h : step s = .next t) : runFor (n + 1) s = runFor n t := by
  have hc : Host.Core.step Sys2Proof.core s = .next t := h
  simp only [runFor, Host.Core.run, hc]
  rfl

/-- Every run of a number of cycles answers a next state. -/
theorem runFor_total (n : Nat) (s : State) : ∃ t, runFor n s = .next t := by
  induction n generalizing s with
  | zero => exact ⟨s, rfl⟩
  | succ n ih =>
    obtain ⟨u, hu, -⟩ := step_exists_case s
    rw [runFor_succ n hu]
    exact ih u

/-- Running on from where a run stopped (spec/40_cycle.md R91). -/
theorem runFor_add {a : Nat} (b : Nat) (h : runFor a s = .next t) : runFor (a + b) s = runFor b t := by
  induction a generalizing s with
  | zero => cases h; rw [Nat.zero_add]
  | succ n ih =>
    obtain ⟨u, hu, -⟩ := step_exists_case s
    rw [runFor_succ n hu] at h
    rw [Nat.add_right_comm, runFor_succ (n + b) hu]
    exact ih h

/-- What holds at the start of a run and is kept by every step holds at its end. -/
theorem runFor_keeps {P : State → Prop} (kept : ∀ u v, P u → step u = .next v → P v) {n : Nat} (hs : P s)
    (h : runFor n s = .next t) : P t := by
  induction n generalizing s with
  | zero => cases h; exact hs
  | succ n ih =>
    obtain ⟨u, hu, -⟩ := step_exists_case s
    rw [runFor_succ n hu] at h
    exact ih (kept s u hs hu) h

end Sys2Proof.Machine
end

