-- ==== Sys2Proof/Tests/Slice0.lean ====
section
/-! SUPPORT. Tests of the model, and a witness for the hypotheses of each statement that has some.

Expected values are taken from spec/95_test_vectors.md (named in each comment) or worked out by hand from the rule named;
none is the model's own answer. -/

namespace Sys2Proof.Tests

open Sys2Proof.Machine

/-! ### Well-formedness: each check refuses an ill-formed term -/

theorem test_regFits_refuses_16 : regFits 16 = false ∧ regFits 15 = true := by decide
theorem test_addrFits_refuses_0x1000 : addrFits 0x1000 = false ∧ addrFits 0xFFF = true := by decide
theorem test_wordFits_refuses_0x10000 : wordFits 0x10000 = false ∧ wordFits 0xFFFF = true := by decide
theorem test_imageFits_refuses_overflow : imageFits 0xFFF 2 = false ∧ imageFits 0xFFE 2 = true := by decide
theorem test_call_illFormed : (RawInstr.call 0x1000).wellFormed = false ∧ (RawInstr.call 0x1000).toInstr = none := by
  decide
theorem test_add_illFormed_x : (RawInstr.add 16 0).wellFormed = false ∧ (RawInstr.add 16 0).toInstr = none := by decide
theorem test_add_illFormed_y : (RawInstr.add 0 16).wellFormed = false ∧ (RawInstr.add 0 16).toInstr = none := by decide
theorem test_memory_wf_refuses :
    Memory.wf [(2, 1), (1, 1)] = false ∧ Memory.wf [(1, 0)] = false ∧ Memory.wf [(4096, 1)] = false := by decide

/-! ### Decoding: words written bit by bit from R64 -/

theorem test_decode_halt : decodeWord 0b0000000000000000 = some .halt := by decide
theorem test_decode_return : decodeWord 0b0000000011101110 = some .ret := by decide
/-- 2.1: `21 00` is CALL 0x100. -/
theorem test_decode_call : decodeBytes [0x21, 0x00, 0x77] = .ok (.call 0x100, [0x77]) := by decide
/-- 2.1: `8A B4` is ADD reg10, reg11. -/
theorem test_decode_add : decodeWord 0b1000101010110100 = some (.add 0xA 0xB) := by decide
/-- 2.1: the fields of 0x8AB4. -/
theorem test_decode_fields : decodeFields 0x8AB4 = ⟨8, 0xA, 0xB, 4, 0xAB4, 0xB4⟩ := by decide
/-- 2.2: words that select no row. -/
theorem test_decode_unmatched :
    [0x0001, 0x00E0, 0x00EF, 0x01EE, 0x10EE, 0x8120, 0x8125, 0x812E, 0x9124, 0x7004, 0xFFFF].all
      (fun w => (decodeWord w).isNone) = true := by decide
theorem test_decode_rejects_by_name :
    decodeBytes [0x60, 0x05] = .error (.unimplementedOpcode 0x6005) ∧ decodeBytes [0x00] = .error .truncated := by decide
theorem test_encode : (encode .halt, encode .ret, encode (.call 0xABC), encode (.add 8 15)) =
    (0x0000, 0x00EE, 0x2ABC, 0x88F4) := by decide
theorem test_decodeTableWord : decodeTableWord 16 0x8014 = some (.add 0 1) ∧ decodeTableWord 16 0x8015 = none := by decide

/-! ### Single steps -/

/-- A fresh machine with these bytes at this `pc`. -/
def machineAt (pc : Word) (bytes : List Byte) : State :=
  { State.reset with pc := pc, mem := Memory.writeBytes [] pc.toNat bytes }

/-- With these values in registers 0, 1 and 15. -/
def withRegs (s : State) (r0 r1 vf : Byte) : State := ((s.writeReg 0 r0).writeReg 1 r1).writeReg 0xF vf

/-- With `k` entries on the stack, the last of them `top`. -/
def withStack (s : State) (k : Fin 16) (top : Word) : State := s.push k top

/-- 2.3: a HALT at 0xFFE leaves `pc = 0x1000` and no fault. -/
theorem test_halt_at_top : step (machineAt 0xFFE []) = .next { State.reset with pc := 0x1000, run := .halted } := by
  rw [step_next_iff]
  exact .halt rfl 0x0000 rfl (by decide)

/-- 2.5: `2A BC` at 0x300 with `sp = 15`. -/
theorem test_call_last_slot :
    step (withStack (machineAt 0x300 [0x2A, 0xBC]) 14 7) =
      .next { (withStack (machineAt 0x300 [0x2A, 0xBC]) 14 7).push 15 0x302 with pc := 0xABC } := by
  rw [step_next_iff]
  exact .call rfl 0x2ABC (by decide) 0xABC (by decide) 15 rfl

/-- 2.5: the same with `sp = 16`. -/
theorem test_call_full :
    step (withStack (machineAt 0x300 [0x2A, 0xBC]) 15 7) =
      .next { withStack (machineAt 0x300 [0x2A, 0xBC]) 15 7 with pc := 0x302, run := .faulted .stackOverflow } := by
  rw [step_next_iff]
  exact .overflow rfl 0x2ABC (by decide) 0xABC (by decide) rfl

/-- 2.4: RETURN with `sp = 16`, `stack[15] = 0x1000`. -/
theorem test_return_full :
    step (withStack (machineAt 0x100 [0x00, 0xEE]) 15 0x1000) =
      .next { withStack (machineAt 0x100 [0x00, 0xEE]) 15 0x1000 with pc := 0x1000, sp := 15 } := by
  rw [step_next_iff]
  exact .ret rfl 0x00EE (by decide) (by decide) 15 rfl

/-- L1-5: RETURN on an empty stack. -/
theorem test_return_empty :
    step (machineAt 0 [0x00, 0xEE]) =
      .next { machineAt 0 [0x00, 0xEE] with pc := 2, run := .faulted .stackUnderflow } := by
  rw [step_next_iff]
  exact .underflow rfl 0x00EE (by decide) (by decide) rfl

/-- 2.6, `0x8F14`: the carry overwrites the sum when `x = 0xF`. -/
theorem test_add_into_flag :
    step (withRegs (machineAt 0 [0x8F, 0x14]) 0 200 200) =
      .next { withRegs (machineAt 0 [0x8F, 0x14]) 0 200 1 with pc := 2 } := by
  rw [step_next_iff]
  exact .add rfl 0x8F14 (by decide) 0xF 1 (by decide)

/-- 2.6, `0x80F4`: VF's old value is the operand, and then it takes the carry. -/
theorem test_add_flag_operand :
    step (withRegs (machineAt 0 [0x80, 0xF4]) 10 0 250) =
      .next { withRegs (machineAt 0 [0x80, 0xF4]) 4 0 1 with pc := 2 } := by
  rw [step_next_iff]
  exact .add rfl 0x80F4 (by decide) 0 0xF (by decide)

/-- 2.7: classic LD V0, 5 is unimplemented. -/
theorem test_unimplemented :
    step (machineAt 0 [0x60, 0x05]) =
      .next { machineAt 0 [0x60, 0x05] with pc := 2, run := .faulted .unimplementedOpcode } := by
  rw [step_next_iff]
  exact .unimplemented rfl 0x6005 (by decide) (by decide)

/-- 2.1: the word at an odd address. -/
theorem test_fetch_odd : (machineAt 0x123 [0x21, 0x00]).fetch = some 0x2100 := by decide
/-- 2.1: 0xFFF, 0x1000 and 0xFFFF are out of bounds. -/
theorem test_fetch_out_of_bounds :
    [0xFFF, 0x1000, 0xFFFF].all (fun pc => (machineAt pc []).fetch.isNone) = true := by decide

/-- The host's placed word runs as the first instruction after reset (R120). -/
theorem test_withFetchWord :
    step (State.reset.withFetchWord 16 0x8014) = exec (.add 0 1) (State.reset.withFetchWord 16 0x8014).advance := by
  rw [step_of_fetch rfl (w := 0x8014) (by decide), dispatchWord_of_decode (i := .add 0 1) (by decide)]

/-- R168: a later load overwrites an earlier one, and writing 0x00 leaves no entry. -/
theorem test_memory_write : Memory.write (Memory.write [(3, 7)] 2 9) 3 0 = [(2, 9)] := by decide

/-- R31, 2.7: STATE = 2, CAUSE = 2 after StackUnderflow. -/
theorem test_status : RunState.statusWord (.faulted .stackUnderflow) = 0b1010 := by decide

/-! ### Assembler (R70) -/

/-- P1's subroutine, with DOC's `+=` form, the synonym `RET` and a label. -/
theorem test_assembleText :
    Asm.assembleText "f: ADD reg0+=regF; ADD V1, reg10\nRET; CALL f; .org 0x10\n.word 0x6005".toList =
      some [(0, 0x80F4), (2, 0x81A4), (4, 0x00EE), (6, 0x2000), (0x10, 0x6005)] := by decide

/-- R60, R70: words of two bytes, then a label, called before and after it. -/
theorem test_label_after_words :
    Asm.assembleText ".org 0x10; CALL f; ADD reg0, reg1; f: RETURN; CALL f".toList =
      some [(0x10, 0x2014), (0x12, 0x8014), (0x14, 0x00EE), (0x16, 0x2014)] := by decide

/-- A label directly before `.org` keeps the address before it: the model's choice, log entry 6. -/
theorem test_label_before_org :
    Asm.assembleText "f: .org 0x100; CALL f".toList = some [(0x100, 0x2000)] := by decide

/-- R70's table, spelled for the operands of 2.1's words and for a register above 9. -/
theorem test_spell : Asm.spell (.call 0x0AB) = "CALL 0x0AB".toList ∧ Asm.spell (.add 10 3) = "ADD reg10, reg3".toList := by
  decide

theorem test_assemble_rejects :
    Asm.assembleText "CALL 0x1000".toList = none ∧ Asm.assembleText "CALL g".toList = none ∧
      Asm.assembleText "JP 0x100".toList = none := by decide

/-- An assembled word, loaded and fetched at an odd address (P6's RETURN at 0x101). -/
theorem test_assembled_word_is_fetched :
    (Session.fresh.transactAll (Asm.loads [(0x101, 0x00EE)] ++ [.setPc 0x101])).machine.fetch = some 0x00EE := by decide

/-! ### Witnesses: for each statement with hypotheses, a state and operands that meet them -/

theorem witness_EncodeOfDecodeIsTheWord : decodeWord 0x2FFF = some (.call 0xFFF) := by decide

theorem witness_EncodingSpaceCounts : (decodeFields 0x8FF4).op = 0x8 := by decide

theorem witness_AssemblerEncodesItsSyntax : 65535 < 65536 ∧ (RawInstr.add 15 16).wellFormed = false := by decide

theorem witness_FetchReadsBigEndianWord :
    (machineAt 0xFFE []).pc.toNat ≤ 0xFFE ∧ 0xFFE < (machineAt 0xFFF []).pc.toNat := by decide

theorem witness_StepExecutesDecodedInstruction :
    let s := machineAt 0xFFE [0x80, 0x14]
    s.run = .running ∧ s.pc.toNat ≤ 0xFFE ∧
      decodeBytes [s.mem.read s.pc.toNat, s.mem.read (s.pc.toNat + 1)] = .ok (.add 0 1, []) := by decide

theorem witness_UnmatchedWordRaisesUnimplementedOpcode :
    (machineAt 0 [0x60, 0x05]).run = .running ∧ (machineAt 0 [0x60, 0x05]).fetch = some 0x6005 ∧
      decodeWord 0x6005 = none := by decide

theorem witness_FetchOutOfBoundsKeepsPc :
    (machineAt 0xFFF []).run = .running ∧ 0xFFE < (machineAt 0xFFF []).pc.toNat := by decide

theorem witness_PlacedWordIsExecuted :
    State.reset.wf ∧ 0x2FFF < 65536 ∧ decodeTableWord 16 0x2FFF = some (.call 0xFFF) := by decide

theorem witness_HaltEndsTheRun : State.reset.run = .running ∧ State.reset.fetch = some 0x0000 := by decide

theorem witness_ReturnPopsPc :
    (withStack State.reset 0 2).sp.val = (0 : Fin 16).val + 1 ∧
      (withStack State.reset 15 2).sp.val = (15 : Fin 16).val + 1 ∧ State.reset.sp.val = 0 := by decide

theorem witness_ReturnOnEmptyStackFaults :
    let s := machineAt 0 [0x00, 0xEE]
    s.run = .running ∧ s.fetch = some 0x00EE ∧ s.sp.val = 0 := by decide

theorem witness_CallPushesPcAndJumps :
    State.reset.sp.val = (0 : Fin 16).val ∧ (withStack State.reset 14 2).sp.val = (15 : Fin 16).val ∧
      (withStack State.reset 15 2).sp.val = 16 := by decide

theorem witness_CallOnFullStackFaults :
    let s := withStack (machineAt 0x300 [0x2A, 0xBC]) 15 7
    s.run = .running ∧ s.fetch = some 0x2ABC ∧ decodeWord 0x2ABC = some (.call 0xABC) ∧ s.sp.val = 16 := by decide

theorem witness_AddWritesSumThenCarry : (0 : RegIdx) ≠ 0xF ∧ (1 : RegIdx) ≠ 0 ∧ (1 : RegIdx) ≠ 0xF := by decide

theorem witness_ControlInstructionsKeepRegistersAndMemory :
    (∃ t, exec .halt State.reset = .next t) ∧ (∃ t, exec .ret (withStack State.reset 0 2) = .next t) ∧
      ∃ t, exec (.call 0x100) State.reset = .next t := ⟨⟨_, rfl⟩, ⟨_, rfl⟩, ⟨_, rfl⟩⟩

theorem witness_OnlyAddWritesRegisters :
    ∃ t, step (withRegs (machineAt 0 [0x80, 0x14]) 5 10 7) = .next t ∧
      t.readReg 0 ≠ (withRegs (machineAt 0 [0x80, 0x14]) 5 10 7).readReg 0 ∧
      t.readReg 0xF ≠ (withRegs (machineAt 0 [0x80, 0x14]) 5 10 7).readReg 0xF :=
  ⟨_, rfl, by decide, by decide⟩

theorem witness_OnlyCallAndReturnUseTheStack :
    (∃ t, step (machineAt 0 [0x21, 0x00]) = .next t ∧ t.sp ≠ (machineAt 0 [0x21, 0x00]).sp ∧
        t.stackEntry 0 ≠ (machineAt 0 [0x21, 0x00]).stackEntry 0) ∧
      ∃ t, step (withStack (machineAt 0 [0x00, 0xEE]) 0 6) = .next t ∧
        t.sp ≠ (withStack (machineAt 0 [0x00, 0xEE]) 0 6).sp :=
  ⟨⟨_, rfl, by decide, by decide⟩, ⟨_, rfl, by decide⟩⟩

theorem witness_OnlyCallAndReturnTransferControl :
    (∃ t, step (machineAt 0 [0x21, 0x00]) = .next t ∧ t.pc ≠ 0 ∧ t.pc ≠ 0 + 2) ∧
      ∃ t, step (withStack (machineAt 0 [0x00, 0xEE]) 0 6) = .next t ∧ t.pc ≠ 0 ∧ t.pc ≠ 0 + 2 :=
  ⟨⟨_, rfl, by decide, by decide⟩, ⟨_, rfl, by decide, by decide⟩⟩

theorem witness_RunsNeverWriteMemory : ∃ t, Reaches 1 (machineAt 0 [0x21, 0x00]) t := ⟨_, rfl⟩

/-- R105 with nothing between: CALL 0x002 at 0, whose target is a RETURN. -/
theorem witness_MatchingReturnRestoresPcAndSp :
    let s := machineAt 0 [0x20, 0x02, 0x00, 0xEE]
    s.run = .running ∧ s.fetch = some 0x2002 ∧ decodeWord 0x2002 = some (.call 0x002) ∧ s.sp.val < 16 ∧
      ∃ u, step s = .next u ∧ Reaches 0 u u ∧ (∀ m v, m ≤ 0 → Reaches m u v → u.sp ≤ v.sp) ∧ u.sp = u.sp ∧
        u.run = .running ∧ u.fetch = some 0x00EE ∧ decodeWord 0x00EE = some .ret := by
  refine ⟨by decide, by decide, by decide, by decide, _, rfl, rfl, ?_, rfl, rfl, by decide, by decide⟩
  intro m v hm hv
  obtain rfl : m = 0 := by omega
  cases hv
  exact Nat.le_refl _

/-- A RETURN at `sp = 1` on two states whose stale entry 1 differs. -/
theorem witness_StaleEntriesAreNeverObserved :
    let s := withStack (machineAt 0 [0x00, 0xEE]) 0 6
    let t := { s with stack := s.stack.set 1 9 }
    s ≠ t ∧ s.SameButStale t ∧ (∃ s', step s = .next s') ∧ ∃ t', step t = .next t' :=
  ⟨by decide, ⟨rfl, rfl, rfl, rfl, rfl, by decide⟩, ⟨_, rfl⟩, ⟨_, rfl⟩⟩

theorem witness_CanonicalMemoryIsKept :
    (machineAt 0 [0x21, 0x00]).wf ∧ (∃ t, step (machineAt 0 [0x21, 0x00]) = .next t) ∧ Session.fresh.machine.wf :=
  ⟨by decide, ⟨_, rfl⟩, by decide⟩

theorem witness_PcBoundIsKept :
    (machineAt 0xFFE [0x80, 0x14]).PcBounded 0 ∧ ∃ t, step (machineAt 0xFFE [0x80, 0x14]) = .next t :=
  ⟨⟨by decide, by decide⟩, ⟨_, rfl⟩⟩

theorem witness_PcNeverWraps :
    (machineAt 0xFFE [0x80, 0x14]).Launch ∧ (∃ t, Reaches 1 (machineAt 0xFFE [0x80, 0x14]) t) ∧
      (machineAt 0xFFE [0x80, 0x14]).fetch = some 0x8014 :=
  ⟨⟨rfl, rfl, rfl, by decide⟩, ⟨_, rfl⟩, by decide⟩

theorem witness_CanonicalMemoriesAreDeterminedByReads :
    Memory.wf [(0, 1), (4095, 2)] = true ∧ ∀ a, a < 4096 → Memory.read [(0, 1), (4095, 2)] a =
      Memory.read [(0, 1), (4095, 2)] a := ⟨by decide, fun _ _ => rfl⟩

/-- The four faults, each raised by a running machine (with `test_call_full`, `test_return_empty`,
`test_unimplemented`). -/
theorem witness_FaultsAndTheirConditions :
    step (machineAt 0xFFF []) = .next { machineAt 0xFFF [] with run := .faulted .outOfBoundsFetch } ∧
      (∃ t, exec (.add 15 15) State.reset = .next t) ∧
      ∃ t, Reaches 1 { State.reset with run := .faulted .stackOverflow } t :=
  ⟨by rw [step_next_iff]; exact .outOfBounds rfl (by decide), ⟨_, rfl⟩, ⟨_, rfl⟩⟩

theorem witness_FaultsLeaveExactState :
    (∃ t, step (machineAt 0xFFF []) = .next t ∧ t.run = .faulted .outOfBoundsFetch) ∧
      ∃ t, step (machineAt 0 [0x00, 0xEE]) = .next t ∧ t.run = .faulted .stackUnderflow :=
  ⟨⟨_, rfl, rfl⟩, ⟨_, test_return_empty, rfl⟩⟩

theorem witness_RunStateTransitions :
    (∃ t, step State.reset = .next t) ∧ State.reset.run = .running ∧
      (∃ t, step State.reset.halt = .next t) ∧ State.reset.halt.run ≠ .running :=
  ⟨⟨_, rfl⟩, rfl, ⟨_, rfl⟩, by decide⟩

theorem witness_OutcomeIsFinal :
    (∃ t t', Reaches 1 State.reset t ∧ t.run ≠ .running ∧ Reaches (1 + 2) State.reset t') ∧
      EndsWith State.reset .halted := ⟨⟨_, _, rfl, by decide, rfl⟩, ⟨1, _, rfl, rfl⟩⟩

/-- An ADD at the odd address 0xFFD: `pc` becomes 0xFFF, which no way of R131's list covers. -/
theorem witness_WaysToAFetchOutOfBounds :
    (machineAt 0xFFD [0x80, 0x04]).Launch ∧ Reaches 0 (machineAt 0xFFD [0x80, 0x04]) (machineAt 0xFFD [0x80, 0x04]) ∧
      ∃ t, step (machineAt 0xFFD [0x80, 0x04]) = .next t ∧ t.run = .running ∧ t.pc = 0xFFF ∧ 0xFFE < t.pc.toNat :=
  ⟨⟨rfl, rfl, rfl, by decide⟩, rfl, _, rfl, by decide, by decide, by decide⟩

theorem witness_OutOfBoundsOnlyInTheListedWays :
    (machineAt 0 [0x2F, 0xFF]).Launch ∧ Reaches 0 (machineAt 0 [0x2F, 0xFF]) (machineAt 0 [0x2F, 0xFF]) ∧
      (∃ t, step (machineAt 0 [0x2F, 0xFF]) = .next t ∧ t.run = .running ∧ 0xFFE < t.pc.toNat) ∧
      (machineAt 0x1000 []).run = .running ∧ 0xFFE < (machineAt 0x1000 []).pc.toNat :=
  ⟨⟨rfl, rfl, rfl, by decide⟩, rfl, ⟨_, rfl, by decide, by decide⟩, by decide, by decide⟩

theorem witness_UnloadedMemoryHalts :
    let s := machineAt 0xFFE []
    s.run = .running ∧ s.pc.toNat ≤ 0xFFE ∧ s.mem.read s.pc.toNat = 0x00 ∧ s.mem.read (s.pc.toNat + 1) = 0x00 := by
  decide

theorem witness_LoadCopiesOrFails :
    Session.fresh.begun = false ∧ Session.fresh.machine.wf ∧ 4096 < 4095 + [(1 : Byte), 2].length ∧
      4094 + [(1 : Byte), 2].length ≤ 4096 := by decide

theorem witness_LoadedWordIsFetched :
    Session.fresh.begun = false ∧ Session.fresh.machine.wf ∧ (0xFFE : Word).toNat ≤ 0xFFE := by decide

theorem witness_PreparationOrderIsFree :
    Session.fresh.begun = false ∧ Session.fresh.machine.wf ∧ 0 + [(1 : Byte), 2].length ≤ 2 ∧ (0 : RegIdx) ≠ 0xF := by
  decide

theorem witness_PresetsRegistersAndPc : Session.fresh.begun = false ∧ (1 : RegIdx) ≠ 0 := by decide

/-- A machine loaded at the top of memory and preset there: a launch state, and the transactions that prepare it. -/
theorem witness_LaunchStatesAreThePreparedOnes :
    (machineAt 0xFFE [0x80, 0x14]).Launch ∧
      (∀ x ∈ [Transaction.load 0xFFE [0x80, 0x14], .setPc 0xFFE], x.prepares = true) ∧
      Session.fresh.transactAll [.load 0xFFE [0x80, 0x14], .setPc 0xFFE] = ⟨machineAt 0xFFE [0x80, 0x14], false⟩ :=
  ⟨⟨rfl, rfl, rfl, by decide⟩, by decide, rfl⟩

theorem witness_HostWritesNothingDuringARun :
    (Session.fresh.transact .step).1.begun = true ∧ Transaction.setPc 4 ≠ .reset ∧ Transaction.setPc 4 ≠ .step ∧
      ∀ b, Transaction.setPc 4 ≠ .run b := ⟨rfl, nofun, nofun, nofun⟩

theorem witness_StepTransactionIsOneCycle : Session.fresh.machine.run = .running := rfl

theorem witness_TerminalMachineTakesNoCycle :
    (Session.fresh.transact .step).1.machine.run.outcome = some .halted ∧
      (State.reset.halt.run.outcome, RunState.outcome (.faulted .stackOverflow)) =
        (some .halted, some (.faulted .stackOverflow)) := ⟨rfl, rfl⟩

/-- A label's shape, and a CALL at the top of memory after no word and after one. -/
theorem witness_AssemblerSeparatesStatementsAndBindsLabels :
    ('\n' = '\n' ∨ '\n' = ';') ∧ 0xFFF + 2 * ([] : List Word).length < 4096 ∧ 0xFFD + 2 * [(0x8014 : Word)].length < 4096 ∧
      Asm.isLabel ['_', 'f', '1'] = true ∧ ∀ c ∈ ['_', 'f', '1'], c.isAlphanum = true ∨ c = '_' := by
  refine ⟨.inl rfl, by decide, by decide, rfl, fun c hc => ?_⟩
  simp only [List.mem_cons, List.not_mem_nil, or_false] at hc
  rcases hc with rfl | rfl | rfl
  exacts [.inr rfl, .inl rfl, .inl rfl]

/-- `CALL f; f: g: HALT; CALL f`: two labels before a word, called before and after it. -/
theorem witness_LabelIsBoundToTheNextWord :
    let program : List Asm.Statement := [.callLabel ['f'], .label ['f'], .label ['g'], .instr .halt, .callLabel ['f']]
    Asm.assemble program = some [(0, 0x2002), (2, 0x0000), (4, 0x2002)] ∧
      program = [.callLabel ['f']] ++ .label ['f'] :: [['g']].map .label ++ .instr .halt :: [.callLabel ['f']] ∧
      (Asm.Statement.instr .halt).emitsWord = true ∧
      program = [] ++ .callLabel ['f'] :: program.drop 1 ∧ program = program.take 4 ++ .callLabel ['f'] :: [] := by
  decide

end Sys2Proof.Tests
end

section

namespace Sys2Proof.Machine

/-! ### The state after reset (spec/10_state.md R32) -/

@[simp] theorem State.readReg_reset (r : RegIdx) : State.reset.readReg r = 0x00 := by
  simp [State.readReg, State.reset]

@[simp] theorem State.stackEntry_reset (k : Fin 16) : State.reset.stackEntry k = 0x0000 := by
  simp [State.stackEntry, State.reset]

/-- Reset lists no byte, so every address reads as an unlisted one. -/
@[simp] theorem State.reset_mem_read (a : Nat) : State.reset.mem.read a = 0x00 := rfl

/-- RESET does not look at the session it is given (R162, R167). -/
@[simp] theorem Session.transact_reset (c : Session) : c.transact .reset = (⟨State.reset, false⟩, .done) := rfl

/-- Settles O28, field by field: the registers and the call stack are zero vectors and the memory list is empty. -/
theorem resetValues : Obligations.ResetValues :=
  ⟨State.readReg_reset, rfl, rfl, State.stackEntry_reset, fun a _ => State.reset_mem_read a, rfl,
    Session.transact_reset⟩

end Sys2Proof.Machine
end

section

namespace Sys2Proof

/-! ### The fields as numbers (spec/30_encoding.md R61) -/

section
variable (w : Word)

@[simp] theorem decodeFields_op_toNat : (decodeFields w).op.toNat = w.toNat / 4096 := by
  have := w.isLt
  simp only [decodeFields, BitVec.extractLsb'_toNat, Nat.shiftRight_eq_div_pow]
  omega

@[simp] theorem decodeFields_x_toNat : (decodeFields w).x.toNat = w.toNat / 256 % 16 := by
  simp [decodeFields, Nat.shiftRight_eq_div_pow]

@[simp] theorem decodeFields_y_toNat : (decodeFields w).y.toNat = w.toNat / 16 % 16 := by
  simp [decodeFields, Nat.shiftRight_eq_div_pow]

@[simp] theorem decodeFields_n_toNat : (decodeFields w).n.toNat = w.toNat % 16 := by
  simp [decodeFields]

@[simp] theorem decodeFields_addr_toNat : (decodeFields w).addr.toNat = w.toNat % 4096 := by
  simp [decodeFields]

@[simp] theorem decodeFields_byte_toNat : (decodeFields w).byte.toNat = w.toNat % 256 := by
  simp [decodeFields]

end

/-- Settles O2: each field is a quotient and a remainder of the word, and the two concatenations are
arithmetic on these. -/
theorem fieldsAreTheirBitRanges : Obligations.FieldsAreTheirBitRanges := by
  intro w
  simp only [decodeFields_op_toNat, decodeFields_x_toNat, decodeFields_y_toNat, decodeFields_n_toNat,
    decodeFields_addr_toNat, decodeFields_byte_toNat, true_and]
  omega

/-! ### The encoding space (R68) -/

/-- The dispatcher's choice, with the patterns of R65 as conditions on the word as a number. -/
theorem decodeWord_mnemonic (w : Word) :
    (decodeWord w).map Instr.mnemonic =
      if w.toNat = 0 then some "HALT"
      else if w.toNat = 0xEE then some "RETURN"
      else if w.toNat / 4096 = 2 then some "CALL"
      else if w.toNat / 4096 = 8 ∧ w.toNat % 16 = 4 then some "ADD"
      else none := by
  have halt : (w.toNat / 4096 = 0 ∧ w.toNat / 256 % 16 = 0 ∧ w.toNat / 16 % 16 = 0 ∧ w.toNat % 16 = 0) ↔
      w.toNat = 0 := by omega
  have ret : (w.toNat / 4096 = 0 ∧ w.toNat / 256 % 16 = 0 ∧ w.toNat / 16 % 16 = 14 ∧ w.toNat % 16 = 14) ↔
      w.toNat = 0xEE := by omega
  simp only [decodeWord, selectRow, ← BitVec.toNat_inj, decodeFields_op_toNat, decodeFields_x_toNat,
    decodeFields_y_toNat, decodeFields_n_toNat, BitVec.reduceToNat, halt, ret]
  split_ifs <;> rfl

/-- The `k`-th word of a top nibble, as a number. -/
theorem toNat_op_append (op : Nibble) {k : Nat} (hk : k < 4096) :
    (op ++ BitVec.ofNat 12 k).toNat = 4096 * op.toNat + k := by
  rw [BitVec.toNat_append, BitVec.toNat_ofNat, Nat.mod_eq_of_lt hk, ← Nat.shiftLeft_add_eq_or_of_lt hk,
    Nat.shiftLeft_eq, Nat.mul_comm]

/-- How many of the 4096 words with top nibble `op` select a row whose mnemonic `q` accepts, where `none`
stands for no row. -/
def wordsSelecting (q : Option String → Bool) (op : Nibble) : Nat :=
  (List.range 4096).countP fun k => q ((decodeWord (op ++ BitVec.ofNat 12 k)).map Instr.mnemonic)

/-- A predicate that is constant on a stretch of numbers counts all of it or nothing. -/
theorem countP_range'_of_const {p : Nat → Bool} {a n : Nat} (b : Bool)
    (h : ∀ k, a ≤ k → k < a + n → p k = b) : (List.range' a n).countP p = n * b.toNat := by
  have h' : ∀ k ∈ List.range' a n, p k = b := fun k hk => by
    rw [List.mem_range'_1] at hk
    exact h k hk.1 hk.2
  cases b with
  | false => simpa [List.countP_eq_zero] using h'
  | true => simpa using List.countP_eq_length.2 h'

/-- Counting a predicate that takes one value where `c` holds and another where it does not. -/
theorem countP_ite (c : Nat → Prop) [DecidablePred c] (a b : Bool) (l : List Nat) :
    (l.countP fun k => if c k then a else b) =
      l.countP (c ·) * a.toNat + (l.length - l.countP (c ·)) * b.toNat := by
  have split := l.length_eq_countP_add_countP (p := (c ·))
  have le : l.countP (c ·) ≤ l.length := List.countP_le_length
  cases a <;> cases b
  · simp
  · simp [split]
  · simp
  · simp [Nat.add_sub_cancel' le]

section
variable (q : Option String → Bool)

/-- On the words of one top nibble, the mnemonic is read off the low 12 bits. -/
theorem wordsSelecting_eq (op : Nibble) :
    wordsSelecting q op = (List.range 4096).countP fun k => q (
      if op.toNat = 0 ∧ k = 0 then some "HALT"
      else if op.toNat = 0 ∧ k = 0xEE then some "RETURN"
      else if op.toNat = 2 then some "CALL"
      else if op.toNat = 8 ∧ k % 16 = 4 then some "ADD"
      else none) := by
  refine List.countP_congr fun k hk => ?_
  have hk : k < 4096 := List.mem_range.1 hk
  have halt : 4096 * op.toNat + k = 0 ↔ op.toNat = 0 ∧ k = 0 := by omega
  have ret : 4096 * op.toNat + k = 0xEE ↔ op.toNat = 0 ∧ k = 0xEE := by omega
  have top : (4096 * op.toNat + k) / 4096 = op.toNat := by omega
  have low : (4096 * op.toNat + k) % 16 = k % 16 := by omega
  rw [decodeWord_mnemonic, toNat_op_append op hk]
  simp only [halt, ret, top, low]

/-- Nibble 0: the two fixed words and the two stretches between and after them, which have no row. -/
theorem wordsSelecting_zero :
    wordsSelecting q 0x0 = (q (some "HALT")).toNat + (q (some "RETURN")).toNat + 4094 * (q none).toNat := by
  have stretches : List.range 4096 =
      List.range' 0 1 ++ List.range' 1 0xED ++ List.range' 0xEE 1 ++ List.range' 0xEF 3857 := by
    rw [List.range'_append_1, List.range'_append_1, List.range'_append_1, List.range_eq_range']
  have noRow (k : Nat) (h0 : k ≠ 0) (hEE : k ≠ 0xEE) :
      q (if k = 0 then some "HALT" else if k = 0xEE then some "RETURN" else none) = q none := by
    rw [if_neg h0, if_neg hEE]
  simp only [wordsSelecting_eq, stretches, List.countP_append, BitVec.reduceToNat, true_and, false_and, if_false,
    OfNat.zero_ne_ofNat]
  rw [countP_range'_of_const (n := 1) (q (some "HALT")) fun k _ hk => by rw [if_pos (by omega)],
    countP_range'_of_const (a := 1) (q none) fun k _ _ => noRow k (by omega) (by omega),
    countP_range'_of_const (a := 0xEE) (q (some "RETURN")) fun k _ _ => by rw [if_neg (by omega), if_pos (by omega)],
    countP_range'_of_const (a := 0xEF) (q none) fun k _ _ => noRow k (by omega) (by omega)]
  ring

/-- Nibble 2: every word is a CALL. -/
theorem wordsSelecting_two : wordsSelecting q 0x2 = 4096 * (q (some "CALL")).toNat := by
  rw [wordsSelecting_eq, List.range_eq_range', countP_range'_of_const (q (some "CALL"))]
  intro k _ _
  simp

/-- Nibble 8: one number in sixteen ends in 4. -/
theorem wordsSelecting_eight :
    wordsSelecting q 0x8 = 256 * (q (some "ADD")).toNat + 3840 * (q none).toNat := by
  have endsIn4 : (List.range 4096).countP (fun k => decide (k % 16 = 4)) = 256 :=
    Nat.count_modEq_card 4096 (by decide : 0 < 16) 4
  have counted := countP_ite (fun k => k % 16 = 4) (q (some "ADD")) (q none) (List.range 4096)
  rw [endsIn4, List.length_range] at counted
  simpa [wordsSelecting_eq, apply_ite q] using counted

/-- The other nibbles: no row. -/
theorem wordsSelecting_other {op : Nibble} (h0 : op ≠ 0x0) (h2 : op ≠ 0x2) (h8 : op ≠ 0x8) :
    wordsSelecting q op = 4096 * (q none).toNat := by
  rw [wordsSelecting_eq, List.range_eq_range', countP_range'_of_const (q none)]
  intro k _ _
  simp only [ne_eq, ← BitVec.toNat_inj, BitVec.reduceToNat] at h0 h2 h8
  simp only [h0, h2, h8, false_and, if_false]

/-- R68's table. -/
theorem wordsSelecting_table (op : Nibble) :
    wordsSelecting q op =
      if op = 0x0 then (q (some "HALT")).toNat + (q (some "RETURN")).toNat + 4094 * (q none).toNat
      else if op = 0x2 then 4096 * (q (some "CALL")).toNat
      else if op = 0x8 then 256 * (q (some "ADD")).toNat + 3840 * (q none).toNat
      else 4096 * (q none).toNat := by
  split_ifs with h0 h2 h8
  · rw [h0, wordsSelecting_zero]
  · rw [h2, wordsSelecting_two]
  · rw [h8, wordsSelecting_eight]
  · exact wordsSelecting_other q h0 h2 h8

/-- The table summed over the sixteen nibbles. -/
theorem wordsSelecting_total :
    ((List.range 16).map fun op => wordsSelecting q (BitVec.ofNat 4 op)).sum =
      (q (some "HALT")).toNat + (q (some "RETURN")).toNat + 4096 * (q (some "CALL")).toNat +
        256 * (q (some "ADD")).toNat + 61182 * (q none).toNat := by
  have nibbles : List.range 16 = [0, 1, 2, 3, 4, 5, 6, 7, 8, 9, 10, 11, 12, 13, 14, 15] := rfl
  simp only [nibbles, List.map_cons, List.map_nil, List.sum_cons, List.sum_nil, wordsSelecting_table,
    BitVec.reduceEq, if_true, if_false]
  ring

end

/-- In nibble 8 the last field alone decides whether a word selects a row. -/
theorem decodeWord_isSome_of_op_eight {w : Word} (h : (decodeFields w).op = 0x8) :
    (decodeWord w).isSome = true ↔ (decodeFields w).n = 0x4 := by
  by_cases hn : (decodeFields w).n = 0x4 <;> simp [decodeWord, selectRow, h, hn]

/-- Settles O6: every count is `wordsSelecting` of a question about the mnemonic, answered by R68's table and its
total. -/
theorem encodingSpaceCounts : Obligations.EncodingSpaceCounts := by
  have some_eq : (Option.isSome : Option Instr → Bool) = fun i => (i.map Instr.mnemonic).isSome := by simp
  have none_eq : (Option.isNone : Option Instr → Bool) = fun i => (i.map Instr.mnemonic).isNone := by simp
  have someCount (op : Nibble) : wordsSelecting Option.isSome op =
      if op = 0x0 then 2 else if op = 0x2 then 4096 else if op = 0x8 then 256 else 0 :=
    wordsSelecting_table _ op
  have noneCount (op : Nibble) : wordsSelecting Option.isNone op =
      if op = 0x0 then 4094 else if op = 0x2 then 0 else if op = 0x8 then 3840 else 4096 :=
    wordsSelecting_table _ op
  rw [Obligations.EncodingSpaceCounts, some_eq, none_eq]
  exact ⟨someCount, noneCount, wordsSelecting_total Option.isSome, wordsSelecting_total Option.isNone,
    wordsSelecting_total (· == some "HALT"), wordsSelecting_total (· == some "RETURN"),
    wordsSelecting_total (· == some "CALL"), wordsSelecting_total (· == some "ADD"),
    by decide, by decide, wordsSelecting_two (· == some "CALL"),
    fun w hop => by simpa using decodeWord_isSome_of_op_eight hop⟩

end Sys2Proof
end

section

namespace Sys2Proof.Machine

/-! ### The cycle (spec/40_cycle.md R82) -/

/-- Settles O11: above 0xFFE there is no word to fetch, and that way through the cycle raises on the state it was
given, before the advance. -/
theorem fetchOutOfBoundsKeepsPc : Obligations.FetchOutOfBoundsKeepsPc := fun s hr hpc =>
  step_next_iff.2 (.outOfBounds hr (s.fetch_none_iff.2 hpc))

/-! ### Every run ends (R90)

R90's argument as a measure. The machine holds `sp + 1` places in the program: the return addresses from the bottom of
the stack up, and `pc` on top. A cycle that does not end the run moves the topmost place forward, and may put another
on top of it (CALL), or it removes the topmost place (RETURN). So it lowers the weighted sum of the distances of these
places from the end of the 16-bit range, in which one unit at a place weighs as much as the whole range one level
higher. -/

/-- How far a place in the program is from the end of the 16-bit range; never zero. -/
def distanceToEnd (a : Word) : Nat := 2 ^ 16 - a.toNat

/-- What one unit of distance weighs at a level of the stack, so that no distance one level higher outweighs it. -/
def levelWeight (level : Nat) : Nat := (2 ^ 16) ^ (16 - level)

/-- The part of the measure that the saved return addresses make up. -/
def State.savedMeasure (s : State) : Nat :=
  ∑ k : Fin 16, if k.val < s.sp.val then distanceToEnd (s.stackEntry k) * levelWeight k.val else 0

/-- The measure that every cycle lowers, unless it ends the run. -/
def State.runMeasure (s : State) : Nat := s.savedMeasure + distanceToEnd s.pc * levelWeight s.sp.val

theorem distanceToEnd_pos (a : Word) : 0 < distanceToEnd a := Nat.sub_pos_of_lt a.isLt

theorem distanceToEnd_le (a : Word) : distanceToEnd a ≤ 2 ^ 16 := Nat.sub_le _ _

theorem levelWeight_pos (level : Nat) : 0 < levelWeight level := by simp [levelWeight]

theorem levelWeight_succ {level : Nat} (h : level < 16) : levelWeight level = 2 ^ 16 * levelWeight (level + 1) := by
  rw [levelWeight, levelWeight, show 16 - level = 16 - (level + 1) + 1 by omega, Nat.pow_succ']

variable {s t : State}

/-- A fetch that succeeds leaves room for the advance, so the place it moves to is nearer to the end. -/
theorem distanceToEnd_advance {w : Word} (hf : s.fetch = some w) :
    distanceToEnd s.pc = distanceToEnd (s.pc + 2) + 2 := by
  obtain ⟨hle, -⟩ := s.fetch_some_iff.1 hf
  have hadv := s.advance_toNat hle
  rw [State.advance_pc] at hadv
  rw [distanceToEnd, distanceToEnd, hadv]
  omega

/-- One more return address on the same ones below it adds its own weighted distance. -/
theorem State.savedMeasure_succ {k : Fin 16} (hs : s.sp.val = k.val) (ht : t.sp.val = k.val + 1)
    (below : ∀ j, j < k → t.stackEntry j = s.stackEntry j) :
    t.savedMeasure = s.savedMeasure + distanceToEnd (t.stackEntry k) * levelWeight k.val := by
  have termwise (j : Fin 16) :
      (if j.val < t.sp.val then distanceToEnd (t.stackEntry j) * levelWeight j.val else 0) =
        (if j.val < s.sp.val then distanceToEnd (s.stackEntry j) * levelWeight j.val else 0) +
          if j = k then distanceToEnd (t.stackEntry k) * levelWeight k.val else 0 := by
    rw [hs, ht]
    obtain hlt | rfl | hgt := lt_trichotomy j k
    · rw [if_pos (by omega), if_pos (Fin.lt_def.1 hlt), if_neg hlt.ne, below j hlt, Nat.add_zero]
    · simp
    · rw [if_neg (by omega), if_neg (by omega), if_neg hgt.ne']
  simp only [State.savedMeasure, termwise, Finset.sum_add_distrib, Finset.sum_ite_eq', Finset.mem_univ, if_true]

/-- ADD's way: past the fetched word, with the stack as it was. -/
theorem runMeasure_lt_of_advance {w : Word} (hf : s.fetch = some w) (hpc : t.pc = s.pc + 2) (hsp : t.sp = s.sp)
    (hstack : t.stackEntry = s.stackEntry) : t.runMeasure < s.runMeasure := by
  have hd := distanceToEnd_advance hf
  have hw := levelWeight_pos s.sp.val
  rw [State.runMeasure, State.runMeasure, State.savedMeasure, State.savedMeasure, hstack, hsp, hpc, hd]
  gcongr
  omega

/-- RETURN gives up the place at `pc`: the place it goes on from was counted already. -/
theorem runMeasure_popPc_lt (k : Fin 16) (hs : s.sp.val = k.val + 1) :
    (s.advance.popPc k).runMeasure < s.runMeasure := by
  have hsaved : s.savedMeasure =
      (s.advance.popPc k).savedMeasure + distanceToEnd (s.stackEntry k) * levelWeight k.val :=
    State.savedMeasure_succ (by simp) hs fun _ _ => rfl
  have hgone : 0 < distanceToEnd s.pc * levelWeight s.sp.val := Nat.mul_pos (distanceToEnd_pos _) (levelWeight_pos _)
  simp only [State.runMeasure, State.popPc_pc, State.popPc_sp, State.stackEntry_advance, Fin.val_castSucc, hsaved]
  omega

/-- CALL moves the place it returns to forward by 2, which outweighs the place it jumps to, one level higher. -/
theorem runMeasure_call_lt {w : Word} (hf : s.fetch = some w) (k : Fin 16) (hs : s.sp.val = k.val) (a : Word) :
    ((s.advance.push k s.advance.pc).setPc a).runMeasure < s.runMeasure := by
  have hsaved : ((s.advance.push k s.advance.pc).setPc a).savedMeasure =
      s.savedMeasure + distanceToEnd (s.pc + 2) * levelWeight k.val := by
    rw [State.savedMeasure_succ hs (by simp) fun j hj => by simp [hj.ne]]
    simp
  have htarget : distanceToEnd a * levelWeight (k.val + 1) ≤ levelWeight k.val := by
    rw [levelWeight_succ k.isLt]
    exact Nat.mul_le_mul_right _ (distanceToEnd_le a)
  have hw := levelWeight_pos k.val
  simp only [State.runMeasure, hsaved, State.setPc_pc, State.setPc_sp, State.push_sp, Fin.val_succ, hs,
    distanceToEnd_advance hf, Nat.add_mul]
  omega

/-- A step that leaves the machine `Running` lowers the measure. -/
theorem step_runMeasure_lt (h : step s = .next t) (ht : t.run = .running) : t.runMeasure < s.runMeasure := by
  cases step_next_iff.1 h with
  | terminal hterm => simp [ht, RunState.terminal] at hterm
  | outOfBounds | unimplemented | halt | underflow | overflow => cases ht
  | ret _ _ _ _ k hs => exact runMeasure_popPc_lt k hs
  | call _ _ hf _ _ k hs => exact runMeasure_call_lt hf k hs _
  | add _ _ hf => exact runMeasure_lt_of_advance hf rfl rfl rfl

/-- Settles O38, by induction on the measure: a step either ends the run or leaves a running machine with a lower
measure, whose run ends. -/
theorem everyRunTerminates : Obligations.EveryRunTerminates := by
  intro s
  induction s using (measure State.runMeasure).wf.induction with
  | h s ih =>
    obtain ⟨t, hst, -⟩ := step_exists_case s
    by_cases ht : t.run = .running
    · obtain ⟨n, u, htu, hu⟩ := ih t (step_runMeasure_lt hst ht)
      exact ⟨n + 1, u, (runFor_succ n hst).trans htu, hu⟩
    · exact ⟨1, t, runFor_succ 0 hst, ht⟩

end Sys2Proof.Machine
end

section

namespace Sys2Proof

/-! ### The words of CALL (spec/30_encoding.md R64) -/

/-- Top nibble 2 alone selects CALL (R65). -/
theorem decodeWord_of_op_two {w : Word} (h : (decodeFields w).op = 0x2) :
    decodeWord w = some (.call (decodeFields w).addr) := by
  simp [decodeWord, selectRow, h]

/-- The sum of top nibble and address does not wrap. -/
theorem callWord_toNat (addr : Addr) : (0x2000 + addr.setWidth 16 : Word).toNat = 0x2000 + addr.toNat := by
  rw [BitVec.toNat_add, BitVec.toNat_setWidth]
  simp only [BitVec.reduceToNat]
  omega

theorem decodeWord_callWord (addr : Addr) : decodeWord (0x2000 + addr.setWidth 16) = some (.call addr) := by
  have hop : (decodeFields (0x2000 + addr.setWidth 16)).op = 0x2 := BitVec.eq_of_toNat_eq <| by
    rw [decodeFields_op_toNat, callWord_toNat]
    simp only [BitVec.reduceToNat]
    omega
  have haddr : (decodeFields (0x2000 + addr.setWidth 16)).addr = addr := BitVec.eq_of_toNat_eq <| by
    rw [decodeFields_addr_toNat, callWord_toNat]
    omega
  rw [decodeWord_of_op_two hop, haddr]

end Sys2Proof

namespace Sys2Proof.Machine

/-! ### The control instructions on the state after the advance (spec/41_control.md) -/

section
variable {s : State} {k : Fin 16} {addr : Addr}

theorem exec_ret_of_sp (hs : s.sp.val = k.val + 1) : exec .ret s = .next (s.popPc k) := by
  simp only [exec, execReturn, s.topSlot_some_iff.2 hs]

theorem exec_ret_of_empty (hs : s.sp.val = 0) : exec .ret s = s.raise .stackUnderflow := by
  simp only [exec, execReturn, s.topSlot_none_iff.2 hs]

theorem exec_call_of_sp (hs : s.sp.val = k.val) :
    exec (.call addr) s = .next ((s.push k s.pc).setPc (addrOperand addr)) := by
  simp only [exec, execCall, s.freeSlot_some_iff.2 hs]

theorem exec_call_of_full (hs : s.sp.val = 16) : exec (.call addr) s = s.raise .stackOverflow := by
  simp only [exec, execCall, s.freeSlot_none_iff.2 hs]

end

/-- Settles O14: the handler is `State.halt` on every state, and HALT's way through the cycle is the only one that a
running machine has on the word 0x0000. -/
theorem haltEndsTheRun : Obligations.HaltEndsTheRun :=
  have hd : decodeWord 0x0000 = some .halt := by decide
  ⟨hd, fun _ => rfl, fun _ hr hf => step_next_iff.2 (.halt hr 0x0000 hf hd)⟩

/-- Settles O15: `sp` decides which slot RETURN pops, or that there is none. -/
theorem returnPopsPc : Obligations.ReturnPopsPc :=
  ⟨by decide, fun _ _ => exec_ret_of_sp, fun _ => exec_ret_of_empty⟩

/-- Settles O17: CALL is a push of `pc` and a jump, so each accessor reads what these two leave. -/
theorem callPushesPcAndJumps : Obligations.CallPushesPcAndJumps := by
  refine ⟨decodeWord_callWord, fun s addr k hs => ⟨_, exec_call_of_sp hs, ?_⟩, fun _ _ => exec_call_of_full⟩
  refine ⟨by simp, fun j hj => by simp [hj], ?sp, ?pc, fun _ => rfl, fun _ => rfl, rfl⟩
  case sp => simp [hs]
  case pc => simp

/-! ### A CALL and its matching RETURN (R105)

The return address stays in its slot while `sp` is above it, since a push writes the slot at `sp` and nothing else
writes the stack. -/

section
variable {s t u : State} {k : Fin 16}

/-- An entry below `sp` outlives every step, a RETURN that pops it included. -/
theorem step_stackEntry_of_lt_sp (h : step s = .next t) (hk : k.val < s.sp.val) : t.stackEntry k = s.stackEntry k := by
  cases step_next_iff.1 h with
  | call _ _ _ _ _ free hs =>
    have hlt : k < free := Fin.lt_def.2 (hs ▸ hk)
    simp [hlt.ne]
  | terminal | outOfBounds | unimplemented | halt | underflow | ret | overflow | add => rfl

/-- An entry that stays below `sp` during a run keeps its value. -/
theorem reaches_stackEntry_of_lt_sp {n : Nat} (h : Reaches n s t)
    (hk : ∀ m v, m ≤ n → Reaches m s v → k.val < v.sp.val) : t.stackEntry k = s.stackEntry k := by
  induction n generalizing s with
  | zero =>
    cases h
    rfl
  | succ n ih =>
    obtain ⟨u, hu, -⟩ := step_exists_case s
    have reaches_iff (m : Nat) (v : State) : Reaches (m + 1) s v ↔ Reaches m u v := by
      rw [Reaches, Reaches, runFor_succ m hu]
    calc t.stackEntry k
      _ = u.stackEntry k := ih ((reaches_iff n t).1 h) fun m v hm hv =>
          hk (m + 1) v (Nat.succ_le_succ hm) ((reaches_iff m v).2 hv)
      _ = s.stackEntry k := step_stackEntry_of_lt_sp hu (hk 0 s (Nat.zero_le _) rfl)

/-- What the cycle of a CALL that completes leaves for the matching RETURN. -/
theorem step_call_saves {w : Word} {addr : Addr} (hr : s.run = .running) (hf : s.fetch = some w)
    (hd : decodeWord w = some (.call addr)) (hs : s.sp.val = k.val) (h : step s = .next u) :
    u.sp = k.succ ∧ u.stackEntry k = s.pc + 2 := by
  obtain rfl : _ = u := Host.Outcome.next.inj ((step_next_iff.2 (.call hr w hf addr hd k hs)).symm.trans h)
  simp

end

/-- Settles O26: the CALL saves its return address in the slot at `sp`, the slot stays below `sp` until the RETURN, and
the RETURN pops it. -/
theorem matchingReturnRestoresPcAndSp : Obligations.MatchingReturnRestoresPcAndSp := by
  intro n s u t w w' addr hr hf hd hlt hsu hut hstay hsp htr htf htd
  obtain ⟨k, hk⟩ : ∃ k : Fin 16, s.sp = k.castSucc := ⟨⟨s.sp.val, hlt⟩, rfl⟩
  obtain ⟨husp, hsaved⟩ := step_call_saves hr hf hd (congrArg Fin.val hk) hsu
  have hkept : t.stackEntry k = u.stackEntry k := reaches_stackEntry_of_lt_sp hut fun m v hm hv =>
    Fin.le_def.1 (husp ▸ hstay m v hm hv : k.succ ≤ v.sp)
  have hpop : step t = .next (t.advance.popPc k) :=
    step_next_iff.2 (.ret htr w' htf htd k (congrArg Fin.val (hsp.trans husp)))
  refine ⟨_, hpop, ?pc, hk.symm, htr⟩
  case pc =>
    rw [State.popPc_pc, State.stackEntry_advance, hkept, hsaved]
    exact s.advance_toNat (s.fetch_some_iff.1 hf).1

end Sys2Proof.Machine
end

section

namespace Sys2Proof

/-! ### The words of ADD (spec/30_encoding.md R64) -/

/-- Top nibble 8 and last nibble 4 select ADD, whatever the registers (R65). -/
theorem decodeWord_of_op_eight {w : Word} (hop : (decodeFields w).op = 0x8) (hn : (decodeFields w).n = 0x4) :
    decodeWord w = some (.add (regOfField (decodeFields w).x) (regOfField (decodeFields w).y)) := by
  simp [decodeWord, selectRow, hop, hn]

/-- The word 0x8xy4 as a number. -/
theorem addWord_toNat (x y : RegIdx) :
    (BitVec.ofNat 16 (0x8004 + 256 * x.val + 16 * y.val)).toNat = 0x8004 + 256 * x.val + 16 * y.val := by
  rw [BitVec.toNat_ofNat]
  exact Nat.mod_eq_of_lt (by omega)

theorem decodeWord_addWord (x y : RegIdx) :
    decodeWord (BitVec.ofNat 16 (0x8004 + 256 * x.val + 16 * y.val)) = some (.add x y) := by
  have hw := addWord_toNat x y
  generalize BitVec.ofNat 16 (0x8004 + 256 * x.val + 16 * y.val) = w at hw
  have hop : (decodeFields w).op = 0x8 := BitVec.eq_of_toNat_eq <| by
    simp only [decodeFields_op_toNat, BitVec.reduceToNat]
    omega
  have hn : (decodeFields w).n = 0x4 := BitVec.eq_of_toNat_eq <| by
    simp only [decodeFields_n_toNat, BitVec.reduceToNat]
    omega
  have hx : regOfField (decodeFields w).x = x := Fin.ext <| by
    simp only [regOfField, decodeFields_x_toNat]
    omega
  have hy : regOfField (decodeFields w).y = y := Fin.ext <| by
    simp only [regOfField, decodeFields_y_toNat]
    omega
  rw [decodeWord_of_op_eight hop hn, hx, hy]

end Sys2Proof

namespace Sys2Proof.Machine

/-! ### ADD on the state after the advance (spec/42_arithmetic.md R120) -/

/-- ADD answers from every state: the write of the sum, then the write of the carry, both of the operands as they
were. -/
theorem exec_add (x y : RegIdx) (s : State) :
    exec (.add x y) s = .next ((s.writeReg x (sumByte (s.readReg x) (s.readReg y))).writeFlag
      (carryByte (s.readReg x) (s.readReg y))) := rfl

/-- Settles O19: the carry's write is the later one, so VF reads the carry even when `x` is 0xF, and any other
register reads the sum's write or its old value. -/
theorem addWritesSumThenCarry : Obligations.AddWritesSumThenCarry := by
  refine ⟨decodeWord_addWord, fun s x y => ⟨_, exec_add x y s, ?carry, fun hx => ?sum, fun r hrx hrF => ?others,
    rfl, rfl, fun _ => rfl, fun _ => rfl, rfl⟩⟩
  case carry =>
    rw [State.readReg_writeFlag, if_pos rfl]
    exact carryByte_toNat _ _
  case sum => rw [State.readReg_writeFlag, if_neg hx, State.readReg_writeReg, if_pos rfl, sumByte_toNat]
  case others => rw [State.readReg_writeFlag, if_neg hrF, State.readReg_writeReg, if_neg hrx]

end Sys2Proof.Machine
end

section

namespace Sys2Proof.Machine

/-! ### What a fault leaves and when it is raised (spec/60_exceptions.md R130 to R137) -/

/-- When a running machine's cycle raises each fault (R131 to R134). -/
def State.Raises (s : State) : Fault → Prop
  | .outOfBoundsFetch => 0xFFE < s.pc.toNat
  | .unimplementedOpcode => ∃ w, s.fetch = some w ∧ decodeWord w = none
  | .stackOverflow => ∃ w addr, s.fetch = some w ∧ decodeWord w = some (.call addr) ∧ s.sp.val = 16
  | .stackUnderflow => ∃ w, s.fetch = some w ∧ decodeWord w = some .ret ∧ s.sp.val = 0

/-- What the cycle of a fault leaves: `run` records the reason, and the faults raised after the fetch have the advance
behind them (R136). -/
def State.afterFault (s : State) (f : Fault) : State :=
  { s with pc := if f = .outOfBoundsFetch then s.pc else s.pc + 2, run := .faulted f }

section
variable {s t : State} {f : Fault}

/-- The condition of a fault leads the cycle into that fault. -/
theorem step_of_raises (hr : s.run = .running) (hc : s.Raises f) : step s = .next (s.afterFault f) := by
  rw [step_next_iff]
  cases f with
  | outOfBoundsFetch => exact .outOfBounds hr (s.fetch_none_iff.2 hc)
  | unimplementedOpcode =>
    obtain ⟨w, hf, hd⟩ := hc
    exact .unimplemented hr w hf hd
  | stackOverflow =>
    obtain ⟨w, addr, hf, hd, hs⟩ := hc
    exact .overflow hr w hf addr hd hs
  | stackUnderflow =>
    obtain ⟨w, hf, hd, hs⟩ := hc
    exact .underflow hr w hf hd hs

/-- Each way through the cycle that ends in a fault has the fault's condition on it; the others leave `run` at
`Running` or `Halted`. -/
theorem raises_of_step (hr : s.run = .running) (h : step s = .next t) (ht : t.run = .faulted f) : s.Raises f := by
  cases step_next_iff.1 h with
  | outOfBounds _ hf => cases ht; exact s.fetch_none_iff.1 hf
  | unimplemented _ w hf hd => cases ht; exact ⟨w, hf, hd⟩
  | overflow _ w hf addr hd hs => cases ht; exact ⟨w, addr, hf, hd, hs⟩
  | underflow _ w hf hd hs => cases ht; exact ⟨w, hf, hd, hs⟩
  | halt => cases ht
  | terminal | ret | call | add => cases hr.symm.trans ht

theorem step_of_faulted (hr : s.run = .running) (h : step s = .next t) (ht : t.run = .faulted f) :
    t = s.afterFault f :=
  Host.Outcome.next.inj (h.symm.trans (step_of_raises hr (raises_of_step hr h ht)))

theorem step_faulted_iff (hr : s.run = .running) (h : step s = .next t) : t.run = .faulted f ↔ s.Raises f := by
  refine ⟨raises_of_step hr h, fun hc => ?_⟩
  obtain rfl : t = s.afterFault f := Host.Outcome.next.inj (h.symm.trans (step_of_raises hr hc))
  rfl

/-- There is no return from a fault (R139). -/
theorem reaches_faulted {n : Nat} (hs : s.run = .faulted f) (h : Reaches n s t) : t.run = .faulted f := by
  refine runFor_keeps (P := fun u => u.run = .faulted f) (fun u v hu huv => ?_) hs h
  have hstay : step u = .next u := step_of_terminal (by rw [hu]; rfl)
  obtain rfl : u = v := Host.Outcome.next.inj (hstay.symm.trans huv)
  exact hu

end

/-- Settles O10: the word's way through the cycle raises on the advanced state. -/
theorem unmatchedWordRaisesUnimplementedOpcode : Obligations.UnmatchedWordRaisesUnimplementedOpcode :=
  fun _ w hr hf hd => step_of_raises (f := .unimplementedOpcode) hr ⟨w, hf, hd⟩

/-- Settles O16: 0x00EE is RETURN's word, and an empty stack has no slot to pop. -/
theorem returnOnEmptyStackFaults : Obligations.ReturnOnEmptyStackFaults :=
  fun _ hr hf hs => step_of_raises (f := .stackUnderflow) hr ⟨0x00EE, hf, by decide, hs⟩

/-- Settles O18: a full stack has no slot to push to. -/
theorem callOnFullStackFaults : Obligations.CallOnFullStackFaults :=
  fun _ w addr hr hf hd hs => step_of_raises (f := .stackOverflow) hr ⟨w, addr, hf, hd, hs⟩

/-- Settles O34: the conditions are those of `State.Raises`, HALT's and ADD's updates record no fault, and a faulted
machine takes no cycle. -/
theorem faultsAndTheirConditions : Obligations.FaultsAndTheirConditions := by
  refine ⟨rfl, fun s t hr h => ?conditions, fun s t x y f hr h => ?noFault, fun _ _ _ _ => reaches_faulted⟩
  case conditions =>
    exact ⟨step_faulted_iff hr h, step_faulted_iff hr h, step_faulted_iff hr h, step_faulted_iff hr h⟩
  case noFault =>
    obtain h | h := h
    · cases h
      simp
    · cases h
      simp [hr]

/-- Settles O35: the next state is `State.afterFault`, in which `sp` is the one that the fault's condition speaks of,
and undoing the advance gives the instruction's address back. -/
theorem faultsLeaveExactState : Obligations.FaultsLeaveExactState := by
  intro s t f hr h ht
  have hc := raises_of_step hr h ht
  obtain rfl := step_of_faulted hr h ht
  refine ⟨rfl, ?overflow, ?underflow, ?address⟩
  case overflow =>
    rintro rfl
    obtain ⟨_, _, _, _, hs⟩ := hc
    exact hs
  case underflow =>
    rintro rfl
    obtain ⟨_, _, _, hs⟩ := hc
    exact hs
  case address =>
    by_cases hf : f = .outOfBoundsFetch
    · simp [State.afterFault, hf]
    · simp [State.afterFault, hf]

/-- Refutes O40: the machine launched at the odd address 0xFFD on the bytes 80 04 adds and is `Running` at 0xFFF, by
none of the listed ways (log entry 2). -/
theorem not_outOfBoundsOnlyInTheListedWays : ¬ Obligations.OutOfBoundsOnlyInTheListedWays := by
  rintro ⟨-, onlyWays⟩
  let s : State := { State.reset with pc := 0xFFD, mem := [(0xFFD, 0x80), (0xFFE, 0x04)] }
  have hlaunch : s.Launch := ⟨rfl, rfl, rfl, by decide⟩
  have hf : s.fetch = some 0x8004 := by decide
  have hd : decodeWord 0x8004 = some (.add 0 0) := by decide
  have hstep := step_next_iff.2 (.add rfl 0x8004 hf 0 0 hd)
  obtain ⟨hpc, -⟩ | ⟨w, hw, hcall⟩ | ⟨w, hw, hret, -⟩ := onlyWays 0 s s _ hlaunch rfl rfl hstep rfl (by decide)
  · exact absurd hpc (by decide)
  · obtain rfl := Option.some.inj (hf.symm.trans hw)
    cases hd.symm.trans hcall
  · obtain rfl := Option.some.inj (hf.symm.trans hw)
    cases hd.symm.trans hret

end Sys2Proof.Machine
end

section

namespace Sys2Proof

/-! ### Decode and encode agree (spec/30_encoding.md R64, R65) -/

section
variable {w : Word} {i : Instr}

theorem decodeWord_encode (i : Instr) : decodeWord (encode i) = some i := by
  cases i with
  | halt => decide
  | ret => decide
  | call addr =>
    obtain ⟨hop, haddr⟩ := decodeFields_op_addr 0x2#4 addr
    rw [encode, decodeWord_of_op_two hop, haddr]
  | add x y =>
    have hf := decodeFields_nibbles 0x8#4 (fieldOfReg x) (fieldOfReg y) 0x4#4
    rw [encode, decodeWord_of_op_eight (by rw [hf]; rfl) (by rw [hf]; rfl), hf, regOfField_fieldOfReg,
      regOfField_fieldOfReg]

/-- Each row fixes or reads every bit of the word, so the encoding puts the word together again. -/
theorem encode_of_decodeWord (h : decodeWord w = some i) : encode i = w := by
  have nibbles := word_eq_nibbles w
  rw [decodeWord, selectRow] at h
  split_ifs at h with hhalt hret hcall hadd
  · cases h
    obtain ⟨hop, hx, hy, hn⟩ := hhalt
    rw [nibbles, hop, hx, hy, hn]
    rfl
  · cases h
    obtain ⟨hop, hx, hy, hn⟩ := hret
    rw [nibbles, hop, hx, hy, hn]
    rfl
  · cases h
    calc encode (.call (decodeFields w).addr)
      _ = (decodeFields w).op ++ (decodeFields w).addr := by rw [hcall]; rfl
      _ = w := (word_eq_op_addr w).symm
  · cases h
    obtain ⟨hop, hn⟩ := hadd
    rw [encode, fieldOfReg_regOfField, fieldOfReg_regOfField, nibbles, decodeFields_nibbles, hop, hn]
    rfl

/-- Two bytes are decoded as the word they make, and the rest is left (R42). -/
theorem decodeBytes_of_decodeWord {first second : Byte} (h : decodeWord (wordOfBytes first second) = some i)
    (rest : List Byte) : decodeBytes (first :: second :: rest) = .ok (i, rest) := by
  rw [decodeBytes, h]

end

/-- Settles O3: the fields of the encoded word are the ones it was put together from, and its two bytes make it
again. -/
theorem decodeOfEncodeIsTheInstruction : Obligations.DecodeOfEncodeIsTheInstruction := by
  refine fun i rest => ⟨decodeWord_encode i, decodeBytes_of_decodeWord ?_ rest⟩
  rw [wordOfBytes_bytesOfWord, decodeWord_encode]

/-- Settles O4: the dispatcher fixes or passes on every bit of the word. -/
theorem encodeOfDecodeIsTheWord : Obligations.EncodeOfDecodeIsTheWord := fun _ _ => encode_of_decodeWord

/-! ### The mask table (R65) -/

/-- A row whose pattern and mask are written in nibbles selects by comparing the masked fields. -/
theorem selects_nibbles_iff (w : Word) (name : String) (a b c d a' b' c' d' : Nibble) :
    (OpcodeRow.mk name (a ++ b ++ c ++ d) (a' ++ b' ++ c' ++ d')).selects w = true ↔
      (decodeFields w).op &&& a' = a ∧ (decodeFields w).x &&& b' = b ∧ (decodeFields w).y &&& c' = c ∧
        (decodeFields w).n &&& d' = d := by
  have hmask : w &&& (a' ++ b' ++ c' ++ d') = ((decodeFields w).op &&& a') ++ ((decodeFields w).x &&& b') ++
      ((decodeFields w).y &&& c') ++ ((decodeFields w).n &&& d') := by
    rw [← BitVec.and_append, ← BitVec.and_append, ← BitVec.and_append, ← word_eq_nibbles]
  rw [OpcodeRow.selects, beq_iff_eq, hmask]
  constructor
  · intro h
    have hfields := congrArg decodeFields h
    rw [decodeFields_nibbles, decodeFields_nibbles] at hfields
    cases hfields
    exact ⟨rfl, rfl, rfl, rfl⟩
  · rintro ⟨rfl, rfl, rfl, rfl⟩
    rfl


/-- A mask nibble 0xF keeps its field. -/
theorem and_fullNibble (f : Nibble) : f &&& 0xF#4 = f := BitVec.and_allOnes

theorem selects_halt_iff (w : Word) : (OpcodeRow.mk "HALT" 0x0000 0xFFFF).selects w = true ↔
    (decodeFields w).op = 0x0 ∧ (decodeFields w).x = 0x0 ∧ (decodeFields w).y = 0x0 ∧ (decodeFields w).n = 0x0 := by
  simpa [and_fullNibble] using selects_nibbles_iff w "HALT" 0x0 0x0 0x0 0x0 0xF 0xF 0xF 0xF

theorem selects_return_iff (w : Word) : (OpcodeRow.mk "RETURN" 0x00EE 0xFFFF).selects w = true ↔
    (decodeFields w).op = 0x0 ∧ (decodeFields w).x = 0x0 ∧ (decodeFields w).y = 0xE ∧ (decodeFields w).n = 0xE := by
  simpa [and_fullNibble] using selects_nibbles_iff w "RETURN" 0x0 0x0 0xE 0xE 0xF 0xF 0xF 0xF

theorem selects_call_iff (w : Word) :
    (OpcodeRow.mk "CALL" 0x2000 0xF000).selects w = true ↔ (decodeFields w).op = 0x2 := by
  simpa [and_fullNibble] using selects_nibbles_iff w "CALL" 0x2 0x0 0x0 0x0 0xF 0x0 0x0 0x0

theorem selects_add_iff (w : Word) : (OpcodeRow.mk "ADD" 0x8004 0xF00F).selects w = true ↔
    (decodeFields w).op = 0x8 ∧ (decodeFields w).n = 0x4 := by
  simpa [and_fullNibble] using selects_nibbles_iff w "ADD" 0x8 0x0 0x0 0x4 0xF 0x0 0x0 0xF

/-- Settles O5: the four rows compare the fields that the dispatcher compares, and no two of them agree with one
word. -/
theorem dispatchFollowsTheMaskTable : Obligations.DispatchFollowsTheMaskTable := by
  intro w
  simp only [opcodeRows, List.filter_cons, List.filter_nil, selects_halt_iff, selects_return_iff, selects_call_iff,
    selects_add_iff, decodeWord, selectRow]
  by_cases halt : (decodeFields w).op = 0x0 ∧ (decodeFields w).x = 0x0 ∧ (decodeFields w).y = 0x0 ∧
      (decodeFields w).n = 0x0
  · simp [halt, Instr.mnemonic]
  by_cases ret : (decodeFields w).op = 0x0 ∧ (decodeFields w).x = 0x0 ∧ (decodeFields w).y = 0xE ∧
      (decodeFields w).n = 0xE
  · simp [ret, Instr.mnemonic]
  by_cases call : (decodeFields w).op = 0x2
  · simp [call, Instr.mnemonic]
  by_cases add : (decodeFields w).op = 0x8 ∧ (decodeFields w).n = 0x4
  · simp [add, Instr.mnemonic]
  · rw [if_neg halt, if_neg ret, if_neg call, if_neg add, if_neg halt, if_neg ret, if_neg call, if_neg add]
    rfl

/-- Settles O1: each word is evaluated. -/
theorem decodesWordsOfTheTable : Obligations.DecodesWordsOfTheTable := by
  unfold Obligations.DecodesWordsOfTheTable
  decide

end Sys2Proof
end

section

namespace Sys2Proof.Machine

/-! ### The step as a function (spec/40_cycle.md R81, R84) -/

section
variable {s t u : State}

/-- The way through the cycle decides the next state. -/
theorem StepCase.eq_of_step (hc : StepCase s t) (h : step s = .next u) : u = t :=
  Host.Outcome.next.inj (h.symm.trans (step_next_iff.2 hc))

theorem step_of_decodeWord {w : Word} {i : Instr} (hr : s.run = .running) (hf : s.fetch = some w)
    (hd : decodeWord w = some i) : step s = exec i s.advance := by
  rw [step_of_fetch hr hf, dispatchWord_of_decode hd]

end

/-- Settles O12: each way through the cycle ends in a next state. -/
theorem stepAlwaysAnswersNext : Obligations.StepAlwaysAnswersNext := fun s =>
  (step_exists_case s).imp fun _ => And.left

/-- Settles O8: in bounds the fetch is `wordOfBytes` of the two bytes, above there is none. -/
theorem fetchReadsBigEndianWord : Obligations.FetchReadsBigEndianWord := fun s =>
  ⟨fun h => ⟨_, s.fetch_of_le h, wordOfBytes_toNat _ _⟩, s.fetch_none_iff.2⟩

/-- Only bytes whose word decodes are decoded to an instruction. -/
theorem decodeWord_of_decodeBytes {first second : Byte} {i : Instr} {rest rest' : List Byte}
    (h : decodeBytes (first :: second :: rest) = .ok (i, rest')) : decodeWord (wordOfBytes first second) = some i := by
  rw [decodeBytes] at h
  split at h
  · cases h
    assumption
  · cases h

/-- Settles O9: the two bytes decode as the word that the fetch makes of them. -/
theorem stepExecutesDecodedInstruction : Obligations.StepExecutesDecodedInstruction := fun s _ hr hpc hd =>
  ⟨step_of_decodeWord hr (s.fetch_of_le hpc) (decodeWord_of_decodeBytes hd), s.advance_toNat hpc⟩

/-- Settles O20: both are numbers that the sum of the operands gives. -/
theorem sumAndCarryAreSymmetric : Obligations.SumAndCarryAreSymmetric := by
  intro a b
  have hsum : intSum a b = intSum b a := Nat.add_comm _ _
  refine ⟨sumByte_toNat a b, ?quotient, by rw [sumByte, carryByte, hsum, ← sumByte, ← carryByte]⟩
  case quotient =>
    rw [carryByte_toNat]
    split <;> omega

/-! ### The host's placed word (log entry 4) -/

/-- `decodeTableWord` at the hardware's own width asks `decodeWord`. -/
theorem decodeWord_of_decodeTableWord {w : Nat} {i : Instr} (h : decodeTableWord 16 w = some i) :
    decodeWord (BitVec.ofNat 16 (w % 2 ^ 16)) = some i := by
  rw [decodeTableWord, if_pos le_rfl] at h
  dsimp only at h
  split at h
  · next hb =>
    cases h
    simpa only [wordOfBytes_bytesOfWord] using decodeWord_of_decodeBytes hb
  · cases h

/-- Two bytes written at a `pc` in bounds are the word fetched there. -/
theorem fetch_of_writeBytes {m : Memory} (hm : m.wf = true) {s : State} {w : Word} (hpc : s.pc.toNat ≤ 0xFFE)
    (hs : s.mem = m.writeBytes s.pc.toNat [(bytesOfWord w).1, (bytesOfWord w).2]) : s.fetch = some w := by
  have fits : s.pc.toNat + 2 ≤ 4096 := by omega
  have hread := Memory.read_writeBytes hm s.pc.toNat [(bytesOfWord w).1, (bytesOfWord w).2] fits
  rw [s.fetch_of_le hpc, hs, hread, hread]
  simp [wordOfBytes_bytesOfWord]

theorem fetch_placeFetchWord {s : State} (hs : s.wf) (w : Word) : (placeFetchWord s w).fetch = some w := by
  refine fetch_of_writeBytes hs ?_ rfl
  by_cases h : s.fetchInBounds = true
  · simpa [placeFetchWord, h] using s.fetchInBounds_iff.1 h
  · simp [placeFetchWord, h]

/-- Settles O13: the placed word is fetched by a machine that is `Running`. -/
theorem placedWordIsExecuted : Obligations.PlacedWordIsExecuted := fun _ _ _ hs _ hd =>
  step_of_decodeWord rfl (fetch_placeFetchWord hs _) (decodeWord_of_decodeTableWord hd)

/-! ### What each way through the cycle leaves (spec/10_state.md R22 to R27) -/

section
variable {s t : State}

/-- No cycle writes memory: the four handlers have no store (R40). -/
theorem step_mem (h : step s = .next t) : t.mem = s.mem := by
  cases step_next_iff.1 h <;> rfl

theorem reaches_mem {n : Nat} (h : Reaches n s t) : t.mem = s.mem :=
  runFor_keeps (P := fun u => u.mem = s.mem) (fun _ _ hu huv => (step_mem huv).trans hu) rfl h

end

/-- Settles O25: memory is kept by every step, and the fetch reads nothing else but `pc`. -/
theorem runsNeverWriteMemory : Obligations.RunsNeverWriteMemory := by
  intro n s t h
  have hmem := reaches_mem h
  exact ⟨hmem, by rw [← hmem]⟩

/-- Settles O21: HALT and a fault change `run`, RETURN changes `sp` and `pc`, CALL these and the stack. -/
theorem controlInstructionsKeepRegistersAndMemory : Obligations.ControlInstructionsKeepRegistersAndMemory := by
  rintro s t addr (h | h | h)
  · cases h
    exact ⟨fun _ => rfl, fun _ => rfl⟩
  · rw [exec, execReturn] at h
    split at h <;> cases h <;> exact ⟨fun _ => rfl, fun _ => rfl⟩
  · rw [exec, execCall] at h
    split at h <;> cases h <;> exact ⟨fun _ => rfl, fun _ => rfl⟩

/-- Settles O22: ADD's way is the only one that writes registers, and it writes `x` and VF. -/
theorem onlyAddWritesRegisters : Obligations.OnlyAddWritesRegisters := by
  intro s t r h hne
  cases step_next_iff.1 h with
  | add _ w hf x y hd =>
    refine ⟨w, x, y, hf, hd, ?_⟩
    by_contra hr
    rw [not_or] at hr
    exact hne (by simp [hr])
  | terminal | outOfBounds | unimplemented | halt | underflow | ret | overflow | call => exact absurd rfl hne

/-- Settles O23: only a push and a pop move `sp`, and only a push writes an entry, the one at the old `sp`. -/
theorem onlyCallAndReturnUseTheStack : Obligations.OnlyCallAndReturnUseTheStack := by
  intro s t h
  cases step_next_iff.1 h with
  | ret _ w hf hd k hs => exact ⟨fun _ => ⟨w, hf, .inr ⟨hd, hs.symm⟩⟩, fun _ hne => absurd rfl hne⟩
  | call _ w hf addr hd k hs =>
    refine ⟨fun _ => ⟨w, hf, .inl ⟨addr, hd, by simp [hs]⟩⟩, fun j hne => ?_⟩
    obtain rfl : j = k := by
      by_contra hjk
      exact hne (by simp [hjk])
    exact ⟨w, addr, hf, hd, hs.symm, by simp⟩
  | terminal | outOfBounds | unimplemented | halt | underflow | overflow | add =>
    exact ⟨fun hne => absurd rfl hne, fun _ hne => absurd rfl hne⟩

/-- Settles O24: every other way leaves `pc` at the advance or before it. -/
theorem onlyCallAndReturnTransferControl : Obligations.OnlyCallAndReturnTransferControl := by
  intro s t h hstay hadvance
  cases step_next_iff.1 h with
  | ret _ w hf hd k hs => exact ⟨w, hf, .inr ⟨hd, k, hs, rfl⟩⟩
  | call _ w hf addr hd k hs => exact ⟨w, hf, .inl ⟨addr, hd, addrOperand_toNat addr⟩⟩
  | terminal | outOfBounds => exact absurd rfl hstay
  | unimplemented | halt | underflow | overflow | add => exact absurd rfl hadvance

end Sys2Proof.Machine
end

section

namespace Sys2Proof.Machine

/-! ### Stale call-stack entries (spec/10_state.md R33)

The relation is kept by every update that the cycle is written over; so each way through the cycle can be taken by both
of two related states, and ends in related ones. -/

section
variable {s t s' t' : State}

theorem State.SameButStale.fetch (h : s.SameButStale t) : s.fetch = t.fetch := by
  rw [State.fetch, State.fetch, State.fetchInBounds, State.fetchInBounds, h.pc, h.mem]

theorem State.SameButStale.readReg (h : s.SameButStale t) (i : RegIdx) : s.readReg i = t.readReg i := by
  rw [State.readReg, State.readReg, h.regs]

theorem State.SameButStale.advance (h : s.SameButStale t) : s.advance.SameButStale t.advance :=
  { h with pc := by simp [h.pc] }

theorem State.SameButStale.withRun (h : s.SameButStale t) (r : RunState) :
    State.SameButStale { s with run := r } { t with run := r } :=
  { h with run := rfl }

theorem State.SameButStale.writeReg (h : s.SameButStale t) (i : RegIdx) (v : Byte) :
    (s.writeReg i v).SameButStale (t.writeReg i v) :=
  { h with regs := by simp [h.regs] }

theorem State.SameButStale.setPc (h : s.SameButStale t) (a : Word) : (s.setPc a).SameButStale (t.setPc a) :=
  { h with pc := rfl }

/-- A push makes its slot a held one, with the same value in both. -/
theorem State.SameButStale.push (h : s.SameButStale t) {k : Fin 16} (hs : s.sp.val = k.val) (v : Word) :
    (s.push k v).SameButStale (t.push k v) where
  regs := h.regs
  pc := h.pc
  sp := rfl
  run := h.run
  mem := h.mem
  held j hj := by
    rw [State.stackEntry_push, State.stackEntry_push]
    split_ifs with hjk
    · rfl
    · refine h.held j ?_
      rw [State.push_sp, Fin.val_succ] at hj
      omega

/-- A pop reads the topmost held entry, and the entries below it stay held. -/
theorem State.SameButStale.popPc (h : s.SameButStale t) {k : Fin 16} (hs : s.sp.val = k.val + 1) :
    (s.popPc k).SameButStale (t.popPc k) where
  regs := h.regs
  pc := h.held k (by omega)
  sp := rfl
  run := h.run
  mem := h.mem
  held j hj := h.held j (by rw [State.popPc_sp, Fin.val_castSucc] at hj; omega)

/-- A way through the cycle that one state takes can be taken by every related one, and ends in a related state. -/
theorem State.SameButStale.stepCase (h : s.SameButStale t) (hc : StepCase s s') :
    ∃ t', StepCase t t' ∧ s'.SameButStale t' := by
  have hfetch := h.fetch
  have hrun := h.run
  have hsp := congrArg Fin.val h.sp
  cases hc with
  | terminal hterm => exact ⟨t, .terminal (hrun ▸ hterm), h⟩
  | outOfBounds hr hf => exact ⟨_, .outOfBounds (hrun ▸ hr) (hfetch ▸ hf), h.withRun _⟩
  | unimplemented hr w hf hd => exact ⟨_, .unimplemented (hrun ▸ hr) w (hfetch ▸ hf) hd, h.advance.withRun _⟩
  | halt hr w hf hd => exact ⟨_, .halt (hrun ▸ hr) w (hfetch ▸ hf) hd, h.advance.withRun _⟩
  | underflow hr w hf hd hs =>
    exact ⟨_, .underflow (hrun ▸ hr) w (hfetch ▸ hf) hd (hsp ▸ hs), h.advance.withRun _⟩
  | ret hr w hf hd k hs => exact ⟨_, .ret (hrun ▸ hr) w (hfetch ▸ hf) hd k (hsp ▸ hs), h.advance.popPc hs⟩
  | overflow hr w hf addr hd hs =>
    exact ⟨_, .overflow (hrun ▸ hr) w (hfetch ▸ hf) addr hd (hsp ▸ hs), h.advance.withRun _⟩
  | call hr w hf addr hd k hs =>
    refine ⟨_, .call (hrun ▸ hr) w (hfetch ▸ hf) addr hd k (hsp ▸ hs), ?_⟩
    rw [← h.advance.pc]
    exact (h.advance.push hs _).setPc _
  | add hr w hf x y hd =>
    refine ⟨_, .add (hrun ▸ hr) w (hfetch ▸ hf) x y hd, ?_⟩
    rw [← h.readReg, ← h.readReg]
    exact (h.advance.writeReg _ _).writeReg _ _

end

/-- Settles O27: the other state takes the same way through the cycle, and the step is a function. -/
theorem staleEntriesAreNeverObserved : Obligations.StaleEntriesAreNeverObserved := by
  intro s t s' t' h hs ht
  obtain ⟨u, hu, hrel⟩ := h.stepCase (step_next_iff.1 hs)
  rwa [hu.eq_of_step ht]

/-! ### The bound on `pc` (spec/10_state.md R25) -/

section
variable {bound : Nat} {s t : State}

theorem State.PcBounded.withRun (h : s.PcBounded bound) (r : RunState) :
    State.PcBounded bound { s with run := r } := ⟨h.pc, h.saved⟩

/-- After a fetch that succeeded, the advance ends at 0x1000 or below. -/
theorem advance_toNat_le {w : Word} (hf : s.fetch = some w) : s.advance.pc.toNat ≤ 0x1000 := by
  have hle := (s.fetch_some_iff.1 hf).1
  rw [s.advance_toNat hle]
  omega

theorem State.PcBounded.advance (h : s.PcBounded bound) {w : Word} (hf : s.fetch = some w) :
    s.advance.PcBounded bound :=
  ⟨(advance_toNat_le hf).trans (le_max_right _ _), h.saved⟩

theorem State.PcBounded.writeReg (h : s.PcBounded bound) (i : RegIdx) (v : Byte) :
    (s.writeReg i v).PcBounded bound := ⟨h.pc, h.saved⟩

theorem State.PcBounded.setPc (h : s.PcBounded bound) {a : Word} (ha : a.toNat ≤ 0x1000) :
    (s.setPc a).PcBounded bound := ⟨ha.trans (le_max_right _ _), h.saved⟩

theorem State.PcBounded.push (h : s.PcBounded bound) {k : Fin 16} (hs : s.sp.val = k.val) {v : Word}
    (hv : v.toNat ≤ 0x1000) : (s.push k v).PcBounded bound where
  pc := h.pc
  saved j hj := by
    rw [State.stackEntry_push]
    split_ifs with hjk
    · exact hv
    · refine h.saved j ?_
      rw [State.push_sp, Fin.val_succ] at hj
      omega

theorem State.PcBounded.popPc (h : s.PcBounded bound) {k : Fin 16} (hs : s.sp.val = k.val + 1) :
    (s.popPc k).PcBounded bound where
  pc := (h.saved k (by omega)).trans (le_max_right _ _)
  saved j hj := h.saved j (by rw [State.popPc_sp, Fin.val_castSucc] at hj; omega)

theorem addrOperand_le (addr : Addr) : (addrOperand addr).toNat ≤ 0x1000 := by
  rw [addrOperand_toNat]
  exact addr.isLt.le

theorem step_pcBounded (hs : s.PcBounded bound) (h : step s = .next t) : t.PcBounded bound := by
  cases step_next_iff.1 h with
  | terminal => exact hs
  | outOfBounds => exact hs.withRun _
  | unimplemented _ _ hf | halt _ _ hf | underflow _ _ hf | overflow _ _ hf => exact (hs.advance hf).withRun _
  | ret _ _ hf _ _ hk => exact (hs.advance hf).popPc hk
  | call _ _ hf addr _ _ hk => exact ((hs.advance hf).push hk (advance_toNat_le hf)).setPc (addrOperand_le addr)
  | add _ _ hf => exact ((hs.advance hf).writeReg _ _).writeReg _ _

/-- A launch state holds no saved address, so its own `pc` bounds it. -/
theorem State.Launch.pcBounded (h : s.Launch) : s.PcBounded s.pc.toNat where
  pc := le_max_left _ _
  saved k hk := by simp [h.stackEmpty] at hk

theorem reaches_pcBounded {n : Nat} (hs : s.PcBounded bound) (h : Reaches n s t) : t.PcBounded bound :=
  runFor_keeps (fun _ _ => step_pcBounded) hs h

end

/-- Settles O31: each way through the cycle is made of updates that keep the bound. -/
theorem pcBoundIsKept : Obligations.PcBoundIsKept := fun _ _ _ => step_pcBounded

/-- Settles O32: the launch `pc` bounds the launch state, and every step keeps that bound. -/
theorem pcNeverWraps : Obligations.PcNeverWraps := fun _ _ t hs h =>
  ⟨(reaches_pcBounded hs.pcBounded h).pc, fun _ hf => t.advance_toNat (t.fetch_some_iff.1 hf).1⟩

/-- A word above 0xFFE and at most 0x1000 is one of two. -/
theorem eq_0xFFF_or_0x1000 {a : Word} (hlow : 0xFFE < a.toNat) (hhigh : a.toNat ≤ 0x1000) :
    a = 0xFFF ∨ a = 0x1000 := by
  bv_omega

/-- Settles O41: an advance after a fetch ends above 0xFFE only from the last two addresses, a CALL's operand is one of
12 bits, and the bound on saved addresses leaves RETURN two of them. -/
theorem waysToAFetchOutOfBounds : Obligations.WaysToAFetchOutOfBounds := by
  intro n s u t hs hu hur h htr hpc
  cases step_next_iff.1 h with
  | add _ w hf x y hd =>
    have hle := (u.fetch_some_iff.1 hf).1
    rw [State.writeFlag_pc, State.writeReg_pc, State.advance_pc] at hpc ⊢
    refine ⟨w, hf, .inl ⟨⟨x, y, hd⟩, ?_⟩⟩
    bv_omega
  | call _ w hf addr hd =>
    rw [State.setPc_pc, addrOperand_toNat] at hpc
    obtain rfl : addr = 0xFFF := by bv_omega
    exact ⟨w, hf, .inr (.inl ⟨hd, rfl⟩)⟩
  | ret _ w hf hd k hk =>
    have hsaved := (reaches_pcBounded hs.pcBounded hu).saved k (by omega)
    exact ⟨w, hf, .inr (.inr ⟨hd, eq_0xFFF_or_0x1000 hpc hsaved⟩)⟩
  | terminal hterm => simp [hur, RunState.terminal] at hterm
  | outOfBounds | unimplemented | halt | underflow | overflow => cases htr

/-! ### The end of a run (spec/40_cycle.md R87 to R89) -/

section
variable {s t u : State}

theorem RunState.terminal_iff {r : RunState} : r.terminal = true ↔ r ≠ .running := by
  cases r <;> simp [RunState.terminal]

theorem step_eq_self_of_terminal (hs : s.run ≠ .running) (h : step s = .next t) : t = s :=
  (StepCase.terminal (RunState.terminal_iff.2 hs)).eq_of_step h

theorem reaches_eq_self_of_terminal {n : Nat} (hs : s.run ≠ .running) (h : Reaches n s t) : t = s :=
  runFor_keeps (P := fun u => u = s) (fun _ _ hu huv => by subst hu; exact step_eq_self_of_terminal hs huv) rfl h

theorem Reaches.of_add {n m : Nat} (hst : Reaches n s t) (h : Reaches (n + m) s u) : Reaches m t u := by
  rwa [Reaches, runFor_add m hst] at h

/-- The state of a later step is the terminal state of an earlier one. -/
theorem Reaches.eq_of_terminal {n m : Nat} (hst : Reaches n s t) (ht : t.run ≠ .running) (hnm : n ≤ m)
    (h : Reaches m s u) : u = t := by
  obtain ⟨k, rfl⟩ := Nat.exists_eq_add_of_le hnm
  exact reaches_eq_self_of_terminal ht (hst.of_add h)

theorem RunState.ne_running_of_outcome {r : RunState} {o : RunOutcome} (h : r.outcome = some o) : r ≠ .running := by
  rintro rfl
  cases h

theorem EndsWith.unique {o o' : RunOutcome} (h : EndsWith s o) (h' : EndsWith s o') : o = o' := by
  obtain ⟨n, t, hst, ho⟩ := h
  obtain ⟨m, u, hsu, ho'⟩ := h'
  have hut : u = t := by
    obtain hnm | hmn := le_total n m
    · exact hst.eq_of_terminal (RunState.ne_running_of_outcome ho) hnm hsu
    · exact (hsu.eq_of_terminal (RunState.ne_running_of_outcome ho') hmn hst).symm
  rw [hut, ho] at ho'
  exact Option.some.inj ho'

end

/-- Settles O37: no step leaves a terminal state, so of two states with an outcome the later is the earlier. -/
theorem outcomeIsFinal : Obligations.OutcomeIsFinal :=
  ⟨fun n m _ _ _ hst ht h => hst.eq_of_terminal ht (Nat.le_add_right n m) h, fun _ _ _ => EndsWith.unique⟩

/-- Settles O39: every run ends, and its one outcome is either Halted or a fault. -/
theorem safeRunsAreThoseThatHalt : Obligations.SafeRunsAreThoseThatHalt := by
  intro s
  constructor
  · intro hsafe
    obtain ⟨n, t, hst, ht⟩ := everyRunTerminates s
    refine ⟨n, t, hst, ?_⟩
    cases hrun : t.run with
    | running => exact absurd hrun ht
    | halted => rfl
    | faulted reason => exact absurd hrun (hsafe n t hst reason)
  · intro hhalt n t hst reason hrun
    have hfault : EndsWith s (.faulted reason) := ⟨n, t, hst, by rw [hrun]; rfl⟩
    cases hhalt.unique hfault

/-- Settles O36: each condition opens one way through the cycle, and only these ways leave `run` so. -/
theorem runStateTransitions : Obligations.RunStateTransitions := by
  intro s t h
  refine ⟨fun hr => ⟨⟨fun ht => ?halts, ?ofHalt⟩, ⟨fun ht => ?runs, ?ofRuns⟩⟩, fun hs => step_eq_self_of_terminal hs h⟩
  case halts =>
    cases step_next_iff.1 h with
    | halt _ w hf hd => exact ⟨w, hf, hd⟩
    | terminal | ret | call | add => cases hr.symm.trans ht
    | outOfBounds | unimplemented | underflow | overflow => cases ht
  case ofHalt =>
    rintro ⟨w, hf, hd⟩
    rw [(StepCase.halt hr w hf hd).eq_of_step h]
    rfl
  case runs =>
    cases step_next_iff.1 h with
    | add _ w hf x y hd => exact ⟨w, hf, .inl ⟨x, y, hd⟩⟩
    | call _ w hf addr hd k hs => exact ⟨w, hf, .inr (.inl ⟨addr, hd, by omega⟩)⟩
    | ret _ w hf hd k hs => exact ⟨w, hf, .inr (.inr ⟨hd, by omega⟩)⟩
    | terminal hterm => exact absurd ht (RunState.terminal_iff.1 hterm)
    | outOfBounds | unimplemented | halt | underflow | overflow => cases ht
  case ofRuns =>
    rintro ⟨w, hf, ⟨x, y, hd⟩ | ⟨addr, hd, hs⟩ | ⟨hd, hs⟩⟩
    · rw [(StepCase.add hr w hf x y hd).eq_of_step h]
      exact hr
    · rw [(StepCase.call hr w hf addr hd ⟨s.sp.val, by omega⟩ rfl).eq_of_step h]
      exact hr
    · rw [(StepCase.ret hr w hf hd ⟨s.sp.val - 1, by omega⟩ (by simp only; omega)).eq_of_step h]
      exact hr

/-- Settles O43: each run state's word is evaluated. -/
theorem statusWordFields : Obligations.StatusWordFields := by
  refine ⟨fun r => ?_, by decide⟩
  cases r with
  | running | halted => decide
  | faulted reason => cases reason <;> decide

end Sys2Proof.Machine
end

section

namespace Sys2Proof.Machine

/-! ### Canonical memories (spec/20_memory.md R40, spec/70_reset_and_hazards.md R168) -/

theorem Memory.read_cons (k : Nat) (v : Byte) (rest : Memory) (a : Nat) :
    Memory.read ((k, v) :: rest) a = if a = k then v else Memory.read rest a := rfl

/-- A canonical list reads its first entry as something else than an unlisted byte. -/
theorem Memory.read_head_ne {low k : Nat} {v : Byte} {rest : Memory} (h : Memory.wfFrom low ((k, v) :: rest) = true) :
    Memory.read ((k, v) :: rest) k ≠ Memory.unlisted := by
  obtain ⟨-, -, hv, -⟩ := Memory.wfFrom_cons.1 h
  rwa [Memory.read_cons, if_pos rfl]

/-- Of two lists that read alike, the second does not begin above the first. -/
theorem Memory.head_le_of_read_eq {low k k' : Nat} {v v' : Byte} {rest rest' : Memory}
    (h : Memory.wfFrom low ((k, v) :: rest) = true) (h' : Memory.wfFrom low ((k', v') :: rest') = true)
    (hread : Memory.read ((k, v) :: rest) k = Memory.read ((k', v') :: rest') k) : k' ≤ k := by
  obtain ⟨-, hk, hv', hr'⟩ := Memory.wfFrom_cons.1 h'
  by_contra hlt
  have hbelow : Memory.wfFrom k' ((k', v') :: rest') = true := Memory.wfFrom_cons.2 ⟨le_rfl, hk, hv', hr'⟩
  exact Memory.read_head_ne h (hread.trans (Memory.read_below hbelow (by omega)))

theorem Memory.eq_of_read_eq {low : Nat} {m m' : Memory} (h : Memory.wfFrom low m = true)
    (h' : Memory.wfFrom low m' = true) (hread : ∀ a, Memory.read m a = Memory.read m' a) : m = m' := by
  induction m generalizing low m' with
  | nil =>
    cases m' with
    | nil => rfl
    | cons e' rest' => exact absurd (hread e'.1).symm (Memory.read_head_ne h')
  | cons e rest ih =>
    cases m' with
    | nil => exact absurd (hread e.1) (Memory.read_head_ne h)
    | cons e' rest' =>
      obtain ⟨k, v⟩ := e
      obtain ⟨k', v'⟩ := e'
      obtain rfl : k = k' :=
        le_antisymm (Memory.head_le_of_read_eq h' h (hread k').symm) (Memory.head_le_of_read_eq h h' (hread k))
      obtain ⟨-, -, -, hr⟩ := Memory.wfFrom_cons.1 h
      obtain ⟨-, -, -, hr'⟩ := Memory.wfFrom_cons.1 h'
      obtain rfl : v = v' := by simpa [Memory.read_cons] using hread k
      have hrest : rest = rest' := ih hr hr' fun a => by
        by_cases ha : a = k
        · rw [Memory.read_below hr (by omega), Memory.read_below hr' (by omega)]
        · simpa [Memory.read_cons, ha] using hread a
      rw [hrest]

/-- Canonical lists that read alike in the address space read alike everywhere, and so are equal. -/
theorem Memory.ext_of_wf {m m' : Memory} (h : m.wf = true) (h' : m'.wf = true)
    (hread : ∀ a, a < 4096 → m.read a = m'.read a) : m = m' := by
  refine Memory.eq_of_read_eq h h' fun a => ?_
  by_cases ha : a < 4096
  · exact hread a ha
  · rw [Memory.read_beyond h (Nat.le_of_not_lt ha), Memory.read_beyond h' (Nat.le_of_not_lt ha)]

/-- Settles O33, by induction on the lists: the first entries are at the same address, the least one that does not read
as unlisted. -/
theorem canonicalMemoriesAreDeterminedByReads : Obligations.CanonicalMemoriesAreDeterminedByReads :=
  fun _ _ => Memory.ext_of_wf

section
variable {m : Memory} {o o' : Nat} {bs bs' : List Byte}

theorem loadProgram_of_fits (m : Memory) (fits : o + bs.length ≤ 4096) :
    loadProgram m o bs = some (m.writeBytes o bs) := by
  rw [loadProgram, imageFits, if_pos (decide_eq_true fits)]

theorem loadProgram_of_overflow (m : Memory) (overflow : 4096 < o + bs.length) : loadProgram m o bs = none := by
  rw [loadProgram, imageFits, if_neg (by rw [decide_eq_true_eq]; exact Nat.not_le_of_lt overflow)]

/-- Byte sequences that do not overlap may be written in either order: each address is in one range at most. -/
theorem Memory.writeBytes_comm (hm : m.wf = true) (fits : o + bs.length ≤ 4096) (fits' : o' + bs'.length ≤ 4096)
    (apart : o + bs.length ≤ o' ∨ o' + bs'.length ≤ o) :
    (m.writeBytes o bs).writeBytes o' bs' = (m.writeBytes o' bs').writeBytes o bs := by
  have hw := Memory.wf_writeBytes hm o bs fits
  have hw' := Memory.wf_writeBytes hm o' bs' fits'
  refine Memory.ext_of_wf (Memory.wf_writeBytes hw o' bs' fits') (Memory.wf_writeBytes hw' o bs fits) fun a _ => ?_
  rw [Memory.read_writeBytes hw o' bs' fits', Memory.read_writeBytes hm o bs fits,
    Memory.read_writeBytes hw' o bs fits, Memory.read_writeBytes hm o' bs' fits']
  by_cases hin : o ≤ a ∧ a < o + bs.length
  · rw [if_neg (by omega), if_pos hin, if_pos hin]
  · simp only [if_neg hin]

end

/-- Memory after a LOAD that may fail (R168, decision D16). -/
def Memory.afterLoad (m : Memory) (o : Nat) (bs : List Byte) : Memory := (loadProgram m o bs).getD m

section
variable {m : Memory} {o o' : Nat} {bs bs' : List Byte}

theorem Memory.afterLoad_of_fits (m : Memory) (fits : o + bs.length ≤ 4096) :
    m.afterLoad o bs = m.writeBytes o bs := by
  rw [Memory.afterLoad, loadProgram_of_fits m fits, Option.getD_some]

theorem Memory.afterLoad_of_overflow (m : Memory) (overflow : 4096 < o + bs.length) : m.afterLoad o bs = m := by
  rw [Memory.afterLoad, loadProgram_of_overflow m overflow, Option.getD_none]

theorem Memory.wf_afterLoad (hm : m.wf = true) (o : Nat) (bs : List Byte) : (m.afterLoad o bs).wf = true := by
  rw [Memory.afterLoad]
  cases hl : loadProgram m o bs with
  | none => exact hm
  | some m' => exact loadProgram_wf hm hl

theorem Memory.afterLoad_comm (hm : m.wf = true) (apart : o + bs.length ≤ o' ∨ o' + bs'.length ≤ o) :
    (m.afterLoad o bs).afterLoad o' bs' = (m.afterLoad o' bs').afterLoad o bs := by
  obtain overflow | fits := Nat.lt_or_ge 4096 (o + bs.length)
  · rw [Memory.afterLoad_of_overflow m overflow, Memory.afterLoad_of_overflow _ overflow]
  obtain overflow' | fits' := Nat.lt_or_ge 4096 (o' + bs'.length)
  · rw [Memory.afterLoad_of_overflow m overflow', Memory.afterLoad_of_overflow _ overflow']
  · simp only [Memory.afterLoad_of_fits _ fits, Memory.afterLoad_of_fits _ fits',
      Memory.writeBytes_comm hm fits fits' apart]

end

/-! ### The transactions (spec/70_reset_and_hazards.md R167 to R174): what each does to the session -/

section
variable {c : Session} {t : State}

/-- LOAD, SETREG and SETPC do nothing once the first cycle has begun (log entry 5). -/
theorem Session.transact_of_begun (hb : c.begun = true) {x : Transaction} (hx : x.prepares = true) :
    c.transact x = (c, .notAllowed) := by
  cases x with
  | load | setReg | setPc => rw [Session.transact, if_pos hb]
  | reset | step | run | stop | read | status => cases hx

theorem Session.transact_load_of_fits (hb : c.begun = false) {o : Nat} {bs : List Byte}
    (fits : o + bs.length ≤ 4096) : c.transact (.load o bs) =
      ({ c with machine := { c.machine with mem := c.machine.mem.writeBytes o bs } }, .done) := by
  simp [Session.transact, hb, loadProgram_of_fits c.machine.mem fits]

theorem Session.transact_load_of_overflow (hb : c.begun = false) {o : Nat} {bs : List Byte}
    (overflow : 4096 < o + bs.length) : c.transact (.load o bs) = (c, .loadFailed) := by
  simp [Session.transact, hb, loadProgram_of_overflow c.machine.mem overflow]

/-- The session after a LOAD, failed or not. -/
theorem Session.transact_load_fst (s : State) (o : Nat) (bs : List Byte) :
    (Session.transact ⟨s, false⟩ (.load o bs)).1 = ⟨{ s with mem := s.mem.afterLoad o bs }, false⟩ := by
  obtain overflow | fits := Nat.lt_or_ge 4096 (o + bs.length)
  · rw [Session.transact_load_of_overflow rfl overflow, Memory.afterLoad_of_overflow s.mem overflow]
  · rw [Session.transact_load_of_fits rfl fits, Memory.afterLoad_of_fits s.mem fits]

theorem Session.transact_setReg (s : State) (i : RegIdx) (v : Byte) :
    Session.transact ⟨s, false⟩ (.setReg i v) = (⟨s.writeReg i v, false⟩, .done) := rfl

theorem Session.transact_setPc (s : State) (a : Word) :
    Session.transact ⟨s, false⟩ (.setPc a) = (⟨s.setPc a, false⟩, .done) := rfl

theorem Session.transact_step_of_running (hr : c.machine.run = .running) (h : step c.machine = .next t) :
    c.transact .step = (⟨t, true⟩, .outcome t.run.outcome) := by
  rw [Session.transact, if_neg (by simp [hr, RunState.terminal]), h, Session.afterRun, Bool.or_true]

theorem Session.transact_step_of_terminal (hs : c.machine.run ≠ .running) : c.transact .step = (c, .notAllowed) := by
  rw [Session.transact, if_pos (RunState.terminal_iff.2 hs)]

theorem Session.transact_run {n : Nat} (h : runFor n c.machine = .next t) : c.transact (.run n) =
    (⟨t, c.begun || (decide (n ≠ 0) && !c.machine.run.terminal)⟩, .outcome t.run.outcome) := by
  rw [Session.transact, h, Session.afterRun]

@[simp] theorem Session.transactAll_nil : c.transactAll [] = c := rfl

@[simp] theorem Session.transactAll_cons (x : Transaction) (xs : List Transaction) :
    c.transactAll (x :: xs) = (c.transact x).1.transactAll xs := rfl

@[simp] theorem Session.transactAll_append (xs ys : List Transaction) :
    c.transactAll (xs ++ ys) = (c.transactAll xs).transactAll ys := List.foldl_append

/-- Any transaction but RESET moves the machine only by cycles, once those that prepare it are over, and does not take
back that the first cycle has begun. -/
theorem Session.transact_reaches {x : Transaction} (hreset : x ≠ .reset) (h : x.prepares = true → c.begun = true) :
    (∃ n, Reaches n c.machine (c.transact x).1.machine) ∧ (c.begun = true → (c.transact x).1.begun = true) := by
  by_cases hx : x.prepares = true
  · rw [Session.transact_of_begun (h hx) hx]
    exact ⟨⟨0, rfl⟩, id⟩
  cases x with
  | reset => exact absurd rfl hreset
  | load | setReg | setPc => exact absurd rfl hx
  | stop | read | status => exact ⟨⟨0, rfl⟩, id⟩
  | step =>
    by_cases hr : c.machine.run = .running
    · obtain ⟨t, ht, -⟩ := step_exists_case c.machine
      rw [Session.transact_step_of_running hr ht]
      exact ⟨⟨1, runFor_succ 0 ht⟩, fun _ => rfl⟩
    · rw [Session.transact_step_of_terminal hr]
      exact ⟨⟨0, rfl⟩, id⟩
  | run n =>
    obtain ⟨t, ht⟩ := runFor_total n c.machine
    rw [Session.transact_run ht]
    exact ⟨⟨n, ht⟩, fun hb => by rw [hb, Bool.true_or]⟩

theorem Session.transact_mem_wf (hm : c.machine.wf) (x : Transaction) : (c.transact x).1.machine.wf := by
  by_cases hreset : x = .reset
  · subst hreset
    exact State.reset_mem_wf
  by_cases h : x.prepares = true → c.begun = true
  · obtain ⟨⟨n, hn⟩, -⟩ := Session.transact_reaches hreset h
    exact (congrArg Memory.wf (reaches_mem hn)).trans hm
  obtain ⟨hx, hb⟩ := Classical.not_imp.1 h
  obtain ⟨s, b⟩ := c
  obtain rfl : b = false := eq_false_of_ne_true hb
  cases x with
  | load o bs =>
    rw [Session.transact_load_fst]
    exact Memory.wf_afterLoad hm o bs
  | setReg | setPc => exact hm
  | reset | step | run | stop | read | status => cases hx

end

/-- Settles O30: cycles do not write memory, and LOAD, the only transaction that does, keeps the form. -/
theorem canonicalMemoryIsKept : Obligations.CanonicalMemoryIsKept :=
  ⟨fun _ _ hs h => (congrArg Memory.wf (step_mem h)).trans hs, fun _ x hm => Session.transact_mem_wf hm x⟩

/-- Settles O29: reset is a launch state, so its own `pc`, which is 0, bounds it. -/
theorem resetMeetsTheInvariants : Obligations.ResetMeetsTheInvariants := by
  have hlaunch : State.reset.Launch := ⟨rfl, rfl, rfl, State.reset_mem_wf⟩
  exact ⟨State.reset_mem_wf, hlaunch, hlaunch.pcBounded⟩

/-- Settles O50: each element's accessor is what READ answers with. -/
theorem inspectionHasNoEffect : Obligations.InspectionHasNoEffect := fun _ =>
  ⟨fun _ => rfl, fun _ => rfl, rfl, rfl, fun _ => rfl, rfl, rfl⟩

/-- Settles O49: the transactions that write are not allowed then, and the others move the machine by cycles. -/
theorem hostWritesNothingDuringARun : Obligations.HostWritesNothingDuringARun := by
  intro c x hb hreset
  obtain ⟨hreaches, hbegun⟩ := Session.transact_reaches hreset fun _ => hb
  refine ⟨fun hstep hrun => ?_, hbegun hb, hreaches⟩
  cases x with
  | load | setReg | setPc => rw [Session.transact_of_begun hb rfl]
  | stop | read | status => rfl
  | reset => exact absurd rfl hreset
  | step => exact absurd rfl hstep
  | run n => exact absurd rfl (hrun n)

/-- Settles O44: the bytes are read back through the memory law of `writeBytes`. -/
theorem loadCopiesOrFails : Obligations.LoadCopiesOrFails := by
  intro c o bs hb hm
  refine ⟨Session.transact_load_of_overflow hb, fun fits => ⟨_, Session.transact_load_of_fits hb fits, ?own, ?others⟩⟩
  case own =>
    intro i hi
    rw [Memory.read_writeBytes hm o bs fits, if_pos (by omega), Nat.add_sub_cancel_left, List.getD_eq_getElem _ _ hi]
  case others =>
    intro a ha
    rw [Memory.read_writeBytes hm o bs fits, if_neg (by omega)]

/-- Settles O45: the two bytes stand where `pc` is then set. -/
theorem loadedWordIsFetched : Obligations.LoadedWordIsFetched := by
  rintro ⟨s, b⟩ a w rfl hm ha
  have fits : a.toNat + [(bytesOfWord w).1, (bytesOfWord w).2].length ≤ 4096 := by
    rw [List.length_cons, List.length_singleton]
    omega
  rw [Session.transactAll_cons, Session.transact_load_of_fits rfl fits]
  exact fetch_of_writeBytes hm ha rfl

theorem State.writeReg_comm (s : State) {i i' : RegIdx} (hi : i ≠ i') (v v' : Byte) :
    (s.writeReg i v).writeReg i' v' = (s.writeReg i' v').writeReg i v :=
  congrArg (fun regs => { s with regs := regs }) (Vector.set_comm v v' fun e => hi (Fin.ext e))

/-- Settles O46: LOADs that do not overlap commute in memory; the others write different fields. -/
theorem preparationOrderIsFree : Obligations.PreparationOrderIsFree := by
  rintro ⟨s, b⟩ o o' bs bs' i i' v v' a rfl hm
  simp only [Session.transactAll_cons, Session.transactAll_nil, Session.transact_load_fst, Session.transact_setReg,
    Session.transact_setPc]
  refine ⟨fun hi => ?registers, fun apart => ?loads, rfl, rfl, rfl⟩
  case registers =>
    rw [State.writeReg_comm s hi]
  case loads => rw [Memory.afterLoad_comm hm apart]

/-- Settles O47: before the first cycle both are allowed, and each is one update of the machine. -/
theorem presetsRegistersAndPc : Obligations.PresetsRegistersAndPc := by
  rintro ⟨s, b⟩ i v a rfl
  refine ⟨⟨s.writeReg i v, Session.transact_setReg s i v, by simp, fun r hr => by simp [hr], rfl⟩,
    Session.transact_setPc s a⟩

/-! ### Launch states (R171) -/

section
variable {s : State}

/-- A launch state is reset but for its registers, `pc` and memory. -/
theorem State.Launch.eq_reset (h : s.Launch) :
    s = { State.reset with regs := s.regs, pc := s.pc, mem := s.mem } := by
  obtain ⟨hrun, hsp, hstack, -⟩ := h
  cases s
  cases hrun
  cases hsp
  cases hstack
  rfl

/-- Each transaction of boot step 2 makes a launch state of a launch state. -/
theorem Session.transact_launch (hs : s.Launch) {x : Transaction} (hx : x.prepares = true) :
    ∃ t : State, t.Launch ∧ (Session.transact ⟨s, false⟩ x).1 = ⟨t, false⟩ := by
  obtain ⟨hrun, hsp, hstack, hm⟩ := hs
  cases x with
  | load o bs =>
    exact ⟨{ s with mem := s.mem.afterLoad o bs }, ⟨hrun, hsp, hstack, Memory.wf_afterLoad hm o bs⟩,
      Session.transact_load_fst s o bs⟩
  | setReg i v => exact ⟨s.writeReg i v, ⟨hrun, hsp, hstack, hm⟩, rfl⟩
  | setPc a => exact ⟨s.setPc a, ⟨hrun, hsp, hstack, hm⟩, rfl⟩
  | reset | step | run | stop | read | status => cases hx

theorem Session.transactAll_launch (hs : s.Launch) {xs : List Transaction} (hxs : ∀ x ∈ xs, x.prepares = true) :
    ∃ t : State, t.Launch ∧ Session.transactAll ⟨s, false⟩ xs = ⟨t, false⟩ := by
  induction xs generalizing s with
  | nil => exact ⟨s, hs, rfl⟩
  | cons x xs ih =>
    rw [List.forall_mem_cons] at hxs
    obtain ⟨u, hu, hx⟩ := Session.transact_launch hs hxs.1
    rw [Session.transactAll_cons, hx]
    exact ih hu hxs.2

/-- The whole of memory as one byte sequence. -/
def Memory.image (m : Memory) : List Byte := (List.range 4096).map m.read

/-- Loading the image of a canonical memory over another canonical memory gives it. -/
theorem Memory.writeBytes_image {m m' : Memory} (h : m.wf = true) (h' : m'.wf = true) :
    m'.writeBytes 0 m.image = m := by
  have fits : 0 + m.image.length ≤ Config.memSize := by simp [Memory.image]
  refine Memory.ext_of_wf (Memory.wf_writeBytes h' 0 m.image fits) h fun a ha => ?_
  rw [Memory.read_writeBytes h' 0 m.image fits, if_pos (by simpa [Memory.image] using ha)]
  simp [Memory.image, ha]

/-- SETREG of each listed register to its value in `r`. -/
def setRegs (r : RegIdx → Byte) (is : List RegIdx) : List Transaction := is.map fun i => .setReg i (r i)

/-- They change only registers, and a register that is listed or had its value in `r` already has it then. -/
theorem Session.transactAll_setRegs (s : State) (r : RegIdx → Byte) (is : List RegIdx) :
    ∃ t : State, Session.transactAll ⟨s, false⟩ (setRegs r is) = ⟨t, false⟩ ∧ t = { s with regs := t.regs } ∧
      ∀ i, i ∈ is ∨ s.readReg i = r i → t.readReg i = r i := by
  induction is generalizing s with
  | nil => exact ⟨s, rfl, rfl, by simp⟩
  | cons j is ih =>
    obtain ⟨t, ht, hregs, hread⟩ := ih (s.writeReg j (r j))
    refine ⟨t, ht, hregs, fun i hi => hread i ?_⟩
    by_cases hij : i = j
    · exact .inr (by simp [hij])
    · simpa [hij] using hi

/-- The transactions of boot step 2 that make `s` of a fresh machine. -/
def State.boot (s : State) : List Transaction :=
  .load 0 s.mem.image :: (setRegs s.readReg (List.finRange 16) ++ [.setPc s.pc])

theorem State.boot_prepares (s : State) : ∀ x ∈ s.boot, x.prepares = true := by
  intro x hx
  simp only [State.boot, setRegs, List.mem_cons, List.mem_append, List.mem_map, List.not_mem_nil,
    or_false] at hx
  obtain rfl | ⟨_, _, rfl⟩ | rfl := hx <;> rfl

theorem State.Launch.transactAll_boot (h : s.Launch) : Session.fresh.transactAll s.boot = ⟨s, false⟩ := by
  have fits : 0 + s.mem.image.length ≤ 4096 := by simp [Memory.image]
  have hload : (Session.fresh.transact (.load 0 s.mem.image)).1 = ⟨{ State.reset with mem := s.mem }, false⟩ := by
    rw [Session.transact_load_of_fits rfl fits, Session.fresh, Memory.writeBytes_image h.memory State.reset_mem_wf]
  obtain ⟨t, ht, hregs, hread⟩ :=
    Session.transactAll_setRegs { State.reset with mem := s.mem } s.readReg (List.finRange 16)
  have hsame : t.regs = s.regs := State.regs_ext fun i => hread i (.inl (List.mem_finRange i))
  calc Session.fresh.transactAll s.boot
    _ = ⟨t.setPc s.pc, false⟩ := by
      rw [State.boot, Session.transactAll_cons, hload, Session.transactAll_append, ht]
      rfl
    _ = ⟨s, false⟩ := by
      conv_rhs => rw [h.eq_reset]
      rw [hregs, hsame]
      rfl

end

/-- Settles O48: the loads and presets keep what makes a launch state, and one LOAD of all memory, a SETREG of each
register and a SETPC reach every launch state. -/
theorem launchStatesAreThePreparedOnes : Obligations.LaunchStatesAreThePreparedOnes := by
  refine fun s => ⟨fun h => ⟨s.boot, s.boot_prepares, h.transactAll_boot⟩, ?_⟩
  rintro ⟨xs, hxs, hs⟩
  obtain ⟨t, ht, hfresh⟩ := Session.transactAll_launch ⟨rfl, rfl, rfl, State.reset_mem_wf⟩ hxs
  cases hs.symm.trans hfresh
  exact ht

/-! ### STEP and RUN (spec/40_cycle.md R91, spec/70_reset_and_hazards.md R172) -/

theorem runFor_of_terminal {s : State} (hs : s.run ≠ .running) (n : Nat) : runFor n s = .next s := by
  obtain ⟨t, ht⟩ := runFor_total n s
  rw [ht, reaches_eq_self_of_terminal hs ht]

/-- Two RUNs begin a cycle when one of their length does: after the first, a terminal machine has not moved. -/
theorem runs_begin_eq {a : Nat} {s t : State} (h : Reaches a s t) (b : Nat) :
    ((decide (a ≠ 0) && !s.run.terminal) || (decide (b ≠ 0) && !t.run.terminal)) =
      (decide (a + b ≠ 0) && !s.run.terminal) := by
  by_cases hs : s.run = .running
  · cases a with
    | zero =>
      cases h
      simp
    | succ a => simp [hs, RunState.terminal]
  · rw [reaches_eq_self_of_terminal hs h, RunState.terminal_iff.2 hs]
    simp

/-- Settles O51: the second RUN goes on from where the first one stopped, and STOP is no transition. -/
theorem stopAndResumeIsInvisible : Obligations.StopAndResumeIsInvisible := by
  refine fun c a b => ⟨?_, rfl⟩
  obtain ⟨t, ht⟩ := runFor_total a c.machine
  obtain ⟨u, hu⟩ := runFor_total b t
  have hall : runFor (a + b) c.machine = .next u := (runFor_add b ht).trans hu
  have hfirst : c.transactAll [.run a, .stop] =
      ⟨t, c.begun || (decide (a ≠ 0) && !c.machine.run.terminal)⟩ := by
    rw [Session.transactAll_cons, Session.transact_run ht]
    rfl
  rw [hfirst, Session.transact_run hu, Session.transact_run hall, Bool.or_assoc, runs_begin_eq ht b]

/-- Settles O52: one cycle is RUN with a budget of 1, and it is begun. -/
theorem stepTransactionIsOneCycle : Obligations.StepTransactionIsOneCycle := by
  intro c hr
  obtain ⟨t, ht, -⟩ := step_exists_case c.machine
  have hstep := Session.transact_step_of_running hr ht
  refine ⟨t, (step_of_running hr).symm.trans ht, hstep, ?_⟩
  rw [Session.transact_run (runFor_succ 0 ht), hstep, RunState.terminal_false_iff.2 hr]
  simp

/-- Settles O53: no step leaves a terminal state, and its outcome is the one it records. -/
theorem terminalMachineTakesNoCycle : Obligations.TerminalMachineTakesNoCycle := by
  intro c o n ho
  have hs := RunState.ne_running_of_outcome ho
  have hterm := RunState.terminal_iff.2 hs
  refine ⟨step_of_terminal hterm, ?_, Session.transact_step_of_terminal hs⟩
  rw [Session.transact_run (runFor_of_terminal hs n), ho, hterm]
  simp

/-- Settles O42: two zero bytes are the word of HALT, and a machine never loaded has no others. -/
theorem unloadedMemoryHalts : Obligations.UnloadedMemoryHalts := by
  have halts (s : State) (hr : s.run = .running) (hpc : s.pc.toNat ≤ 0xFFE) (h0 : s.mem.read s.pc.toNat = 0x00)
      (h1 : s.mem.read (s.pc.toNat + 1) = 0x00) : step s = .next { s with pc := s.pc + 2, run := .halted } := by
    have hf : s.fetch = some 0x0000 := by rw [s.fetch_of_le hpc, h0, h1]; rfl
    exact step_next_iff.2 (.halt hr 0x0000 hf (by decide))
  refine ⟨halts, fun a ha => ?_⟩
  have hstep := halts (State.reset.setPc a) rfl ha rfl rfl
  rw [Session.transactAll_cons, Session.fresh, Session.transact_setPc, Session.transactAll_nil,
    Session.transact_step_of_running rfl hstep]
  rfl

end Sys2Proof.Machine
end

section

namespace Sys2Proof

/-! ### The words of CALL and ADD as numbers (spec/30_encoding.md R64)

`decodeWord_callWord` and `decodeWord_addWord` say which word decodes to the instruction; there is no other spelling. -/

theorem encode_call_toNat (addr : Addr) : (encode (.call addr)).toNat = 0x2000 + addr.toNat := by
  rw [encode_of_decodeWord (decodeWord_callWord addr), callWord_toNat]

theorem encode_add_toNat (x y : RegIdx) :
    (encode (.add x y)).toNat = 0x8004 + x.val * 2 ^ 8 + y.val * 2 ^ 4 := by
  rw [encode_of_decodeWord (decodeWord_addWord x y), addWord_toNat]
  omega

theorem wordFits_iff {v : Nat} : wordFits v = true ↔ v < 65536 := by simp [wordFits]

/-- The address a CALL by number stands for, when it fits. -/
theorem RawInstr.toInstr_call {a : Nat} {i : Instr} (h : (RawInstr.call a).toInstr = some i) :
    a < 4096 ∧ i = .call (BitVec.ofNat 12 a) := by
  rw [RawInstr.toInstr] at h
  split_ifs at h with ha
  exact ⟨ha, (Option.some.inj h).symm⟩

end Sys2Proof

namespace Sys2Proof.Machine.Asm

/-! ### Programs of one statement (spec/30_encoding.md R70) -/

theorem assemble_instr (i : Instr) : assemble [.instr i.toRaw] = some [(0, encode i)] := by
  simp [assemble, bindings, emit, Instr.toRaw_toInstr]

theorem assemble_illFormed {r : RawInstr} (h : r.wellFormed = false) : assemble [.instr r] = none := by
  have hnone : r.toInstr = none := by
    rw [← Option.not_isSome_iff_eq_none, RawInstr.toInstr_isSome, h]
    exact Bool.false_ne_true
  simp [assemble, bindings, emit, hnone]

theorem assemble_word {v : Nat} (h : v < 65536) : assemble [.word v] = some [(0, BitVec.ofNat 16 v)] := by
  simp [assemble, bindings, emit, wordFits_iff.2 h]

/-- Settles O7: the words as numbers, and programs of one statement. -/
theorem assemblerEncodesItsSyntax : Obligations.AssemblerEncodesItsSyntax :=
  ⟨assemble_instr, by decide, by decide, encode_call_toNat, encode_add_toNat, fun _ => assemble_word,
    fun _ => assemble_illFormed⟩

/-! ### Where labels are bound -/

section
variable {bound : List (Label × Nat)} {program p q : List Statement} {st : Statement} {l : Label} {loc : Nat}
  {image : List (Nat × Word)}

/-- A program that assembles binds no label twice, and its image is what its bindings make it emit. -/
theorem assemble_eq_some_iff : assemble program = some image ↔
    ((bindings 0 program).map (·.1)).Nodup ∧ emit (bindings 0 program) 0 program = some image := by
  rw [assemble]
  split_ifs with h
  · exact ⟨fun e => ⟨h, e⟩, And.right⟩
  · exact iff_of_false nofun fun e => h e.1

/-- A statement alone that emits a word emits it where it stands. -/
theorem emit_singleton (hst : st.emitsWord = true) (h : emit bound loc [st] = some image) :
    ∃ w, image = [(loc, w)] := by
  cases st with
  | instr r =>
    simp only [emit, Option.bind_eq_some_iff, Option.map_some, Option.some.injEq] at h
    obtain ⟨i, -, rfl⟩ := h
    exact ⟨_, rfl⟩
  | callLabel target =>
    simp only [emit, Option.bind_eq_some_iff, Option.map_some, Option.some.injEq] at h
    obtain ⟨_, -, i, -, rfl⟩ := h
    exact ⟨_, rfl⟩
  | word v =>
    simp only [emit, Option.map_some] at h
    split_ifs at h
    cases h
    exact ⟨_, rfl⟩
  | org | label => cases hst

/-- A CALL of a label is a CALL to the address that the label is bound to, which fits its field. -/
theorem emit_callLabel {w : Word} {a : Nat} (h : emit bound loc [.callLabel l] = some [(loc, w)])
    (hl : bound.lookup l = some a) : a < 4096 ∧ w = encode (.call (BitVec.ofNat 12 a)) := by
  simp only [emit, hl, Option.bind_some, Option.bind_eq_some_iff, Option.map_some, Option.some.injEq] at h
  obtain ⟨i, hi, hw⟩ := h
  obtain ⟨ha, rfl⟩ := RawInstr.toInstr_call hi
  cases hw
  exact ⟨ha, rfl⟩

/-- In the image of a program, the word of a statement stands after the words of the statements before it. -/
theorem getElem?_emit (h : emit bound loc program = some image) (hprogram : program = p ++ st :: q)
    (hst : st.emitsWord = true) :
    ∃ w, image[wordCount p]? = some (p.foldl Statement.after loc, w) ∧
      emit bound (p.foldl Statement.after loc) [st] = some [(p.foldl Statement.after loc, w)] := by
  rw [hprogram, emit_append, Option.bind_eq_some_iff] at h
  obtain ⟨words, hwords, h⟩ := h
  rw [← List.singleton_append, emit_append, Option.map_eq_some_iff] at h
  obtain ⟨rest, hrest, rfl⟩ := h
  rw [Option.bind_eq_some_iff] at hrest
  obtain ⟨own, hown, hrest⟩ := hrest
  obtain ⟨w, rfl⟩ := emit_singleton hst hown
  rw [Option.map_eq_some_iff] at hrest
  obtain ⟨_, -, rfl⟩ := hrest
  refine ⟨w, ?_, hown⟩
  rw [← emit_length hwords, List.getElem?_append_right le_rfl, Nat.sub_self]
  rfl

/-- Labels take no room. -/
theorem foldl_after_labels (ls : List Label) (loc : Nat) :
    (ls.map Statement.label).foldl Statement.after loc = loc := by
  induction ls with
  | nil => rfl
  | cons l ls ih => exact ih

theorem wordCount_labels (ls : List Label) : wordCount (ls.map .label) = 0 := by
  induction ls with
  | nil => rfl
  | cons l ls ih => simp [ih, Statement.emitsWord]

/-- A label bound once is bound to the address counted up to it. -/
theorem lookup_bindings (h : ((bindings loc (p ++ .label l :: q)).map (·.1)).Nodup) :
    (bindings loc (p ++ .label l :: q)).lookup l = some (p.foldl Statement.after loc) := by
  rw [bindings_append, bindings] at h ⊢
  rw [List.map_append, List.map_cons, List.nodup_append] at h
  obtain ⟨-, -, hdisjoint⟩ := h
  have hnone : (bindings loc p).lookup l = none := by
    rw [List.lookup_eq_none_iff]
    intro e he
    have := hdisjoint e.1 (List.mem_map_of_mem he) l List.mem_cons_self
    simpa using this.symm
  rw [List.lookup_append, hnone, Option.none_or, List.lookup_cons_self]

end

/-- Settles O56: the label's address is the one counted up to it, and so is the place of the next word, since labels
take no room; a CALL of the label looks that address up. -/
theorem labelIsBoundToTheNextWord : Obligations.LabelIsBoundToTheNextWord := by
  intro program before after before' after' l further st image h hprogram hst
  obtain ⟨hnodup, hemit⟩ := assemble_eq_some_iff.1 h
  have hlookup : (bindings 0 program).lookup l = some (before.foldl Statement.after 0) := by
    rw [hprogram, List.append_assoc] at hnodup ⊢
    exact lookup_bindings hnodup
  obtain ⟨w, hw, -⟩ := getElem?_emit hemit hprogram hst
  have hcount : wordCount (before ++ Statement.label l :: further.map Statement.label) = wordCount before := by
    simp [wordCount_labels, Statement.emitsWord]
  have haddress : (before ++ Statement.label l :: further.map Statement.label).foldl Statement.after 0 =
      before.foldl Statement.after 0 := by
    rw [List.foldl_append, List.foldl_cons, foldl_after_labels, Statement.after]
  rw [hcount, haddress] at hw
  refine ⟨_, w, hw, hlookup, fun hcall => ?_⟩
  obtain ⟨w', hw', hown⟩ := getElem?_emit hemit hcall rfl
  obtain ⟨ha, rfl⟩ := emit_callLabel hown hlookup
  exact ⟨ha, _, hw'⟩

/-! ### Words under a label -/

/-- `.word` statements that follow one another. -/
def wordStatements (words : List Word) : List Statement := words.map fun w => .word w.toNat

section
variable (words : List Word)

/-- Every word takes two bytes (R60). -/
theorem foldl_after_wordStatements (loc : Nat) :
    (wordStatements words).foldl Statement.after loc = loc + 2 * words.length := by
  induction words generalizing loc with
  | nil => rfl
  | cons w words ih =>
    calc (wordStatements words).foldl Statement.after (loc + 2)
      _ = loc + 2 + 2 * words.length := ih _
      _ = loc + 2 * (words.length + 1) := by omega

theorem bindings_wordStatements (loc : Nat) : bindings loc (wordStatements words) = [] := by
  induction words generalizing loc with
  | nil => rfl
  | cons w words ih => exact ih _

theorem emit_wordStatements (bound : List (Label × Nat)) (loc : Nat) :
    emit bound loc (wordStatements words) = some (words.mapIdx fun k w => (loc + 2 * k, w)) := by
  induction words generalizing loc with
  | nil => rfl
  | cons w words ih =>
    have hstep : emit bound loc (wordStatements (w :: words)) =
        (emit bound (loc + 2) (wordStatements words)).map ((loc, w) :: ·) := by
      simp [wordStatements, emit, wordFits_iff.2 w.isLt, Statement.after]
    rw [hstep, ih, Option.map_some, List.mapIdx_cons]
    simp only [Nat.mul_zero, Nat.add_zero, Nat.mul_add, Nat.add_assoc, Nat.add_comm 2]

end

/-- A label after `.org a` and some words is bound to the address after them. -/
theorem assemble_org_words_label {a : Nat} {words : List Word} (l : Label) (h : a + 2 * words.length < 4096) :
    assemble (.org a :: wordStatements words ++ [.label l, .callLabel l]) =
      some (words.mapIdx (fun k w => (a + 2 * k, w)) ++
        [(a + 2 * words.length, encode (.call (BitVec.ofNat 12 (a + 2 * words.length))))]) := by
  have hbindings : bindings 0 (.org a :: wordStatements words ++ [.label l, .callLabel l]) =
      [(l, a + 2 * words.length)] := by
    change bindings a (wordStatements words ++ [.label l, .callLabel l]) = _
    rw [bindings_append, bindings_wordStatements, foldl_after_wordStatements]
    rfl
  rw [assemble_eq_some_iff, hbindings, List.cons_append, emit, emit_append, Statement.after, emit_wordStatements,
    foldl_after_wordStatements]
  simp [emit, RawInstr.toInstr, h, Statement.after]

end Sys2Proof.Machine.Asm
end

section

namespace Sys2Proof.Machine.Asm

/-! ### From text to tokens (log entry 6)

`lex_word` gathers a word; these say what ends one. -/

theorem flush_reverse {l : List Char} (h : l ≠ []) : flush l.reverse = [.text l] := by simp [flush, h]

theorem lex_nil (acc : List Char) : lex acc [] = flush acc := by rw [lex]

theorem lex_blank (acc s : List Char) : lex acc (' ' :: s) = flush acc ++ lex [] s := by simp [lex]

theorem lex_comma (acc s : List Char) : lex acc (',' :: s) = flush acc ++ .comma :: lex [] s := by simp [lex]

theorem lex_colon (acc s : List Char) : lex acc (':' :: s) = flush acc ++ .colon :: lex [] s := by simp [lex]

theorem lex_plusEq (acc s : List Char) : lex acc ('+' :: '=' :: s) = flush acc ++ .plusEq :: lex [] s := by simp [lex]

theorem lex_dot (acc s : List Char) : lex acc ('.' :: s) = lex ('.' :: acc) s := by simp [lex]

/-- At least one letter, digit or underscore, and nothing else: gathered as one token. -/
def IsWord (l : List Char) : Prop := l ≠ [] ∧ ∀ c ∈ l, wordChar c

section
variable {op a b : List Char}

theorem IsWord.cons {c : Char} {l : List Char} (hc : wordChar c) (hl : ∀ c ∈ l, wordChar c) : IsWord (c :: l) :=
  ⟨List.cons_ne_nil c l, List.forall_mem_cons.2 ⟨hc, hl⟩⟩

/-- A word is cut off by whatever text ends the token before it. -/
theorem lex_word_of_flush (ha : IsWord a) {s : List Char} {ts : List Token}
    (hs : ∀ acc, lex acc s = flush acc ++ ts) : lex [] (a ++ s) = .text a :: ts := by
  obtain ⟨hne, hw⟩ := ha
  rw [lex_word a [] s hw, List.append_nil, hs, flush_reverse hne, List.singleton_append]

theorem lex_word_end (ha : IsWord a) : lex [] a = [.text a] := by
  have h := lex_word_of_flush ha (s := []) (ts := []) fun acc => by rw [lex_nil, List.append_nil]
  rwa [List.append_nil] at h

theorem lex_word_blank (ha : IsWord a) (s : List Char) : lex [] (a ++ ' ' :: s) = .text a :: lex [] s :=
  lex_word_of_flush ha fun acc => lex_blank acc s

theorem lex_word_colon (ha : IsWord a) (s : List Char) : lex [] (a ++ ':' :: s) = .text a :: .colon :: lex [] s :=
  lex_word_of_flush ha fun acc => lex_colon acc s

theorem lex_word_comma (ha : IsWord a) (s : List Char) : lex [] (a ++ ',' :: s) = .text a :: .comma :: lex [] s :=
  lex_word_of_flush ha fun acc => lex_comma acc s

theorem lex_word_plusEq (ha : IsWord a) (s : List Char) :
    lex [] (a ++ '+' :: '=' :: s) = .text a :: .plusEq :: lex [] s :=
  lex_word_of_flush ha fun acc => lex_plusEq acc s

/-- `.word` and `.org` begin with a dot. -/
theorem lex_dot_word_blank (ha : IsWord a) (s : List Char) :
    lex [] ('.' :: a ++ ' ' :: s) = .text ('.' :: a) :: lex [] s := by
  rw [List.cons_append, lex_dot, lex_word a _ _ ha.2, lex_blank, ← List.reverse_cons,
    flush_reverse (List.cons_ne_nil _ _), List.singleton_append]

/-! ### From tokens to one statement -/

theorem splitStatements_of_not_mem {ts : List Token} (h : .separator ∉ ts) (acc : List Token) :
    splitStatements acc ts = [acc.reverse ++ ts] := by
  induction ts generalizing acc with
  | nil => simp [splitStatements]
  | cons t ts ih =>
    rw [List.mem_cons, not_or] at h
    obtain ⟨ht, hts⟩ := h
    rw [splitStatements_cons t (Ne.symm ht), ih hts]
    simp

/-- A text that is cut into one statement's tokens, with no label before it. -/
theorem parse_of_lex {source : List Char} {ts : List Token} (h : lex [] source = .text op :: ts)
    (hseparator : .separator ∉ ts) (hcolon : ts.head? ≠ some .colon) : parse source = parseBody (.text op :: ts) := by
  have hstatement : parseStatement (.text op :: ts) = parseBody (.text op :: ts) := by
    rw [parseStatement]
    rintro l rest hts
    exact hcolon (by rw [(List.cons.inj hts).2, List.head?_cons])
  rw [parse, h, splitStatements_of_not_mem (by simpa using hseparator)]
  simp [parseAll, hstatement]

theorem parse_op (hop : IsWord op) : parse op = parseBody [.text op] :=
  parse_of_lex (lex_word_end hop) (by simp) (by simp)

theorem parse_op_arg (hop : IsWord op) (ha : IsWord a) :
    parse (op ++ ' ' :: a) = parseBody [.text op, .text a] :=
  parse_of_lex (by rw [lex_word_blank hop, lex_word_end ha]) (by simp) (by simp)

theorem parse_dot_op_arg (hop : IsWord op) (ha : IsWord a) :
    parse ('.' :: op ++ ' ' :: a) = parseBody [.text ('.' :: op), .text a] :=
  parse_of_lex (by rw [lex_dot_word_blank hop, lex_word_end ha]) (by simp) (by simp)

theorem parse_op_args_comma (hop : IsWord op) (ha : IsWord a) (hb : IsWord b) :
    parse (op ++ ' ' :: (a ++ ',' :: ' ' :: b)) = parseBody [.text op, .text a, .comma, .text b] := by
  have hlex : lex [] (op ++ ' ' :: (a ++ ',' :: ' ' :: b)) = [.text op, .text a, .comma, .text b] := by
    rw [lex_word_blank hop, lex_word_comma ha, lex_blank, lex_word_end hb]
    rfl
  exact parse_of_lex hlex (by simp) (by simp)

theorem parse_op_args_plusEq (hop : IsWord op) (ha : IsWord a) (hb : IsWord b) :
    parse (op ++ ' ' :: (a ++ '+' :: '=' :: b)) = parseBody [.text op, .text a, .plusEq, .text b] :=
  parse_of_lex (by rw [lex_word_blank hop, lex_word_plusEq ha, lex_word_end hb]) (by simp) (by simp)

end

theorem isWord_call : IsWord "CALL".toList := by simp [IsWord, wordChar]

theorem isWord_add : IsWord "ADD".toList := by simp [IsWord, wordChar]

/-! ### The statements of R70's table -/

section
variable {a b : List Char} {n x y : Nat}

theorem parse_halt : parse "HALT".toList = some [.instr .halt] := by
  rw [parse_op (by simp [IsWord, wordChar])]
  simp [parseBody]

theorem parse_return : parse "RETURN".toList = some [.instr .ret] := by
  rw [parse_op (by simp [IsWord, wordChar])]
  simp [parseBody]

theorem parse_ret : parse "RET".toList = some [.instr .ret] := by
  rw [parse_op (by simp [IsWord, wordChar])]
  simp [parseBody]

theorem parse_call_number (ha : IsWord a) (hn : number a = some n) :
    parse ("CALL".toList ++ ' ' :: a) = some [.instr (.call n)] := by
  rw [parse_op_arg isWord_call ha]
  simp [parseBody, hn]

theorem parse_word_number (ha : IsWord a) (hn : number a = some n) :
    parse (".word".toList ++ ' ' :: a) = some [.word n] := by
  have hop : IsWord "word".toList := by simp [IsWord, wordChar]
  refine (parse_dot_op_arg hop ha).trans ?_
  simp [parseBody, hn]

theorem parse_org_number (ha : IsWord a) (hn : number a = some n) :
    parse (".org".toList ++ ' ' :: a) = some [.org n] := by
  have hop : IsWord "org".toList := by simp [IsWord, wordChar]
  refine (parse_dot_op_arg hop ha).trans ?_
  simp [parseBody, hn]

theorem parse_add_comma (ha : IsWord a) (hb : IsWord b) (hx : register a = some x) (hy : register b = some y) :
    parse ("ADD".toList ++ ' ' :: (a ++ ',' :: ' ' :: b)) = some [.instr (.add x y)] := by
  rw [parse_op_args_comma isWord_add ha hb]
  simp [parseBody, hx, hy]

theorem parse_add_plusEq (ha : IsWord a) (hb : IsWord b) (hx : register a = some x) (hy : register b = some y) :
    parse ("ADD".toList ++ ' ' :: (a ++ '+' :: '=' :: b)) = some [.instr (.add x y)] := by
  rw [parse_op_args_plusEq isWord_add ha hb]
  simp [parseBody, hx, hy]

end

/-! ### Numbers, registers and labels as text -/

theorem isWord_hexNumber (k n : Nat) : IsWord ('0' :: 'x' :: hexText k n) := by
  refine IsWord.cons (by unfold wordChar; decide) (List.forall_mem_cons.2 ⟨by unfold wordChar; decide, ?_⟩)
  exact wordChar_of_mem_hexText k n

theorem number_hexText_word (v : Word) : number ('0' :: 'x' :: hexText 4 v.toNat) = some v.toNat :=
  number_hexText 4 v.toNat (by decide) v.isLt

theorem number_hexText_addr (addr : Addr) : number ('0' :: 'x' :: hexText 3 addr.toNat) = some addr.toNat :=
  number_hexText 3 addr.toNat (by decide) addr.isLt

theorem isWord_reg {l : List Char} (h : ∀ c ∈ l, wordChar c) : IsWord ("reg".toList ++ l) := by
  simpa [IsWord, wordChar] using h

section
variable (r : RegIdx)

theorem wordChar_of_mem_regNumberText : ∀ c ∈ regNumberText r, wordChar c := by
  rw [regNumberText]
  split
  · exact List.forall_mem_singleton.2 (wordChar_hexDigit r)
  · exact List.forall_mem_cons.2 ⟨.inl (by decide), List.forall_mem_singleton.2 (wordChar_hexDigit _)⟩

theorem isWord_regNumber : IsWord ("reg".toList ++ regNumberText r) :=
  isWord_reg (wordChar_of_mem_regNumberText r)

theorem isWord_regDigit : IsWord ("reg".toList ++ [hexDigit r]) :=
  isWord_reg (List.forall_mem_singleton.2 (wordChar_hexDigit r))

theorem isWord_vDigit : IsWord ("V".toList ++ [hexDigit r]) :=
  IsWord.cons (.inl (by decide)) (List.forall_mem_singleton.2 (wordChar_hexDigit r))

theorem register_regNumber : register ("reg".toList ++ regNumberText r) = some r.val := by
  revert r
  decide

theorem register_regDigit : register ("reg".toList ++ [hexDigit r]) = some r.val := by
  revert r
  decide

theorem register_vDigit : register ("V".toList ++ [hexDigit r]) = some r.val := by
  revert r
  decide

end

/-- The character of a decimal digit. -/
def decimalDigit (d : Fin 10) : Char := hexDigit (d.castLE (by decide))

theorem digit_decimalDigit (d : Fin 10) : digit 10 (decimalDigit d) = some d.val := by
  revert d
  decide

theorem decimalDigit_ne_x (d : Fin 10) : decimalDigit d ≠ 'x' := by
  revert d
  decide

theorem number_decimalDigits (d e f : Fin 10) :
    number [decimalDigit d, decimalDigit e, decimalDigit f] = some (100 * d.val + 10 * e.val + f.val) := by
  have hdecimal : number [decimalDigit d, decimalDigit e, decimalDigit f] =
      digits 10 [decimalDigit d, decimalDigit e, decimalDigit f] := by
    rw [number]
    intro cs h
    exact decimalDigit_ne_x e (List.cons.inj (List.cons.inj h).2).1
  rw [hdecimal]
  simp [digits, digit_decimalDigit]
  omega

theorem isWord_decimalDigits (d e f : Fin 10) : IsWord [decimalDigit d, decimalDigit e, decimalDigit f] := by
  refine IsWord.cons (wordChar_hexDigit _) fun c hc => ?_
  simp only [List.mem_cons, List.not_mem_nil, or_false] at hc
  obtain rfl | rfl := hc <;> exact wordChar_hexDigit _

/-- A letter is no decimal digit character. -/
theorem not_decimal_of_isAlpha {c : Char} (h : c.isAlpha = true) : ¬ ('0' ≤ c ∧ c ≤ '9') := by
  simp [Char.isAlpha, Char.isUpper, Char.isLower, Char.le_def, UInt32.le_iff_toNat_le] at h ⊢
  omega

/-- The character that a label begins with is no decimal digit. -/
theorem digit_ten_of_isLabel {c : Char} (h : c.isAlpha = true ∨ c = '_') : digit 10 c = none := by
  have hdecimal : ¬ ('0' ≤ c ∧ c ≤ '9') := by
    obtain h | rfl := h
    · exact not_decimal_of_isAlpha h
    · decide
  rw [digit]
  simp only [if_neg hdecimal]
  rw [if_neg]
  split_ifs <;> omega

/-- Text that begins with no digit is no number. -/
theorem digits_cons_of_digit_none {base : Nat} {c : Char} (h : digit base c = none) (cs : List Char) :
    digits base (c :: cs) = none := by
  rw [digits, if_neg (List.cons_ne_nil c cs), List.foldl_cons, h, Option.bind_some, Option.map_none]
  exact List.foldl_fixed' (fun _ => rfl) cs

/-- A label is not read as a number. -/
theorem number_of_isLabel {l : Label} (h : isLabel l = true) : number l = none := by
  cases l with
  | nil => cases h
  | cons c cs =>
    have hdigit : digit 10 c = none := digit_ten_of_isLabel (by simpa [isLabel] using h)
    rw [number, digits_cons_of_digit_none hdigit]
    intro cs' h
    rw [(List.cons.inj h).1] at hdigit
    exact absurd hdigit (by decide)

/-! ### Assembled texts -/

theorem spell_halt : spell .halt = "HALT".toList := rfl

theorem spell_ret : spell .ret = "RETURN".toList := rfl

theorem spell_call (addr : Addr) : spell (.call addr) = "CALL 0x".toList ++ hexText 3 addr.toNat := rfl

theorem spell_add (x y : RegIdx) :
    spell (.add x y) = "ADD reg".toList ++ regNumberText x ++ ", reg".toList ++ regNumberText y := rfl

theorem assembleText_instr {source : List Char} {i : Instr} (h : parse source = some [.instr i.toRaw]) :
    assembleText source = some [(0, encode i)] := by
  rw [assembleText, h]
  exact assemble_instr i

theorem parse_spell (i : Instr) : parse (spell i) = some [.instr i.toRaw] := by
  cases i with
  | halt =>
    rw [spell_halt, parse_halt]
    rfl
  | ret =>
    rw [spell_ret, parse_return]
    rfl
  | call addr =>
    have h := parse_call_number (isWord_hexNumber 3 _) (number_hexText_addr addr)
    simpa [spell_call, Instr.toRaw] using h
  | add x y =>
    have h := parse_add_comma (isWord_regNumber x) (isWord_regNumber y) (register_regNumber x) (register_regNumber y)
    simpa [spell_add, Instr.toRaw] using h

/-- Settles O54: each text is cut into an operation and its operands, and the operands are read back. -/
theorem assemblerReadsTheSpellings : Obligations.AssemblerReadsTheSpellings := by
  refine ⟨fun i => assembleText_instr (parse_spell i), assembleText_instr (i := .ret) parse_ret,
    fun x y => ⟨?plusEq, ?regDigits, ?vDigits⟩, fun d e f => ?decimal, fun v => ?rawWord⟩
  case plusEq =>
    have h := parse_add_plusEq (isWord_regNumber x) (isWord_regNumber y) (register_regNumber x) (register_regNumber y)
    exact assembleText_instr (i := .add x y) (by simpa [Instr.toRaw] using h)
  case regDigits =>
    have h := parse_add_comma (isWord_regDigit x) (isWord_regDigit y) (register_regDigit x) (register_regDigit y)
    exact assembleText_instr (i := .add x y) (by simpa [Instr.toRaw] using h)
  case vDigits =>
    have h := parse_add_comma (isWord_vDigit x) (isWord_vDigit y) (register_vDigit x) (register_vDigit y)
    exact assembleText_instr (i := .add x y) (by simpa [Instr.toRaw] using h)
  case decimal =>
    have h := parse_call_number (isWord_decimalDigits d e f) (number_decimalDigits d e f)
    have fits : 100 * d.val + 10 * e.val + f.val < 4096 := by omega
    refine assembleText_instr ?_
    simpa [Instr.toRaw, decimalDigit, Nat.mod_eq_of_lt fits] using h
  case rawWord =>
    have h := parse_word_number (isWord_hexNumber 4 _) (number_hexText_word v)
    have htext : ".word 0x".toList ++ hexText 4 v.toNat =
        ".word".toList ++ ' ' :: '0' :: 'x' :: hexText 4 v.toNat := by simp
    rw [assembleText, htext, h, Option.bind_some, assemble_word v.isLt, BitVec.ofNat_toNat, BitVec.setWidth_eq]

/-! ### Statements one after another, and labels -/

theorem parse_append_separator (source rest : List Char) {c : Char} (hc : c = '\n' ∨ c = ';') :
    parse (source ++ c :: rest) = (parse source).bind fun p => (parse rest).map (p ++ ·) := by
  rw [parse, lex_append_separator source rest [] c hc, splitStatements_append_separator, parseAll_append]
  rfl

/-- A label and a colon belong to the statement after them. -/
theorem parse_label {l : Label} (hl : isLabel l = true) (hw : IsWord l) (source : List Char) :
    parse (l ++ ':' :: source) = (parse source).map (.label l :: ·) := by
  obtain ⟨first, others, hsource, hlabelled⟩ := splitStatements_from [.colon, .text l] (lex [] source)
  rw [parse, parse, lex_word_colon hw, splitStatements_cons _ (by simp),
    splitStatements_cons _ (by simp), hlabelled, hsource]
  simp [parseAll, parseStatement, hl]
  cases parseStatement first <;> rfl

theorem parse_call_label {l : Label} (hl : isLabel l = true) (hw : IsWord l) :
    parse ("CALL".toList ++ ' ' :: l) = some [.callLabel l] := by
  rw [parse_op_arg isWord_call hw]
  simp [parseBody, number_of_isLabel hl, hl]

/-- Settles O55: the cuts between statements and after labels are lemmas about `parse`, and the last clause is
`assemble_org_words_label`. -/
theorem assemblerSeparatesStatementsAndBindsLabels : Obligations.AssemblerSeparatesStatementsAndBindsLabels := by
  refine ⟨fun source rest c => parse_append_separator source rest, fun l hl hchars => ?labels, fun v => ?org,
    fun a words l => assemble_org_words_label l⟩
  case labels =>
    have hw : IsWord l := ⟨by rintro rfl; exact absurd hl (by decide), hchars⟩
    exact ⟨parse_label hl hw, by simpa using parse_call_label hl hw⟩
  case org =>
    simpa using parse_org_number (isWord_hexNumber 4 _) (number_hexText_word v)

end Sys2Proof.Machine.Asm
end
